-- ==== Sys2Proof/Word.lean ====
section
/-! DEFINITION. The plain types of the block: bits, the control vector, the event code and the
names of the events and of the raw inputs. A bit is a `Bool` (00_scope.md R9: `true = 1`). -/
namespace Sys2Proof

/-- The control vector `c[2:0] = rst en din` of one clock edge (30_encoding.md R41). -/
abbrev Ctl := BitVec 3

/-- The two-bit code an `EVT` register or an `edge` port carries (10_state.md R17). -/
abbrev EvtCode := BitVec 2

/-- The three event values (00_scope.md R9, 10_state.md R17). -/
inductive Event where
  | none
  | rise
  | fall
deriving DecidableEq, Repr

/-- The two raw inputs of the firmware's instance table (00_scope.md R7). -/
inductive RawInput where
  | powerButton
  | resetButton
deriving DecidableEq, Repr

/-- The firmware's instances by the names of the table (00_scope.md R7). A name is wiring and no state:
"an instance has no identifier" (60_exceptions.md R77). -/
inductive InstanceName where
  | pwrShort
  | pwrLong
  | rstLong
deriving DecidableEq, Repr

end Sys2Proof
end

