-- ==== Sys2Proof/Config.lean ====
section
/-! DEFINITION. What is fixed for an instance at build time (00_scope.md section 4), the firmware's
instances, and the free values: constants without a body, so that nothing can be proved of them. -/
namespace Sys2Proof

/-- The build-time parameters of one instance (00_scope.md R4 to R6, 10_state.md R23). `N = 0` is no
configuration (R4: "the model has no such instance"), so the bound is part of the data. -/
structure Config where
  /-- `N`, the window depth. -/
  depth : Nat
  /-- `INIT`, the reset level; default 0 (R5). -/
  init : Bool := false
  /-- `EXPOSE_WIN`, whether the `win` port is present; default 1 (R6). -/
  exposeWin : Bool := true
  /-- `N >= 1` (R4). -/
  depth_pos : 1 ≤ depth
deriving DecidableEq, Repr

/-- `N_SHORT`, an unaudited literal of the source kept as a parameter (R4, R7, ID1). -/
def Config.nShort : Nat := 2

/-- `N_LONG`, an unaudited literal of the source kept as a parameter (R4, R7, ID1). -/
def Config.nLong : Nat := 16

/-- `T_POLL` in milliseconds (R8, ID1). Informative: nothing of the machine reads it. -/
def Config.tPollMs : Nat := 75

/-- PWR_SHORT of the instance table (R7). -/
def Config.pwrShort : Config := { depth := Config.nShort, depth_pos := by decide }

/-- PWR_LONG of the instance table (R7). -/
def Config.pwrLong : Config := { depth := Config.nLong, depth_pos := by decide }

/-- RST_LONG of the instance table (R7). -/
def Config.rstLong : Config := { depth := Config.nLong, depth_pos := by decide }

/-- One row of the firmware's instance table (R7). -/
structure FirmwareInstance where
  /-- Its name in the table. -/
  name : InstanceName
  /-- The raw input the instance samples. -/
  input : RawInput
  /-- Its build-time parameters. -/
  cfg : Config
  /-- The events the (out of scope) consumer uses. -/
  uses : List Event
deriving DecidableEq, Repr

/-- The firmware's three instances, in the table's order: PWR_SHORT, PWR_LONG, RST_LONG (R7). -/
def Config.firmware : List FirmwareInstance :=
  [ { name := .pwrShort, input := .powerButton, cfg := Config.pwrShort, uses := [.rise, .fall] },
    { name := .pwrLong, input := .powerButton, cfg := Config.pwrLong, uses := [.rise] },
    { name := .rstLong, input := .resetButton, cfg := Config.rstLong, uses := [.rise] } ]

/-- FREE VALUE (log entry 3): what an input that moves inside the set-up and hold window is sampled
as, by stream and index (70_reset_and_hazards.md R84, 93_implementation_defined.md ID4). -/
opaque Config.freeLevel : Nat → Nat → Bool

/-- FREE VALUE (log entry 5): `WIN` before the first `RESET`, by stream, index and width (R80, ID2). -/
opaque Config.powerUpWin : Nat → Nat → (n : Nat) → BitVec n

/-- FREE VALUE (log entry 5): `CONF` before the first `RESET` (R80, ID2). -/
opaque Config.powerUpConf : Nat → Nat → Bool

/-- FREE VALUE (log entry 5): `EVT` before the first `RESET`, `0b11` included (R80, ID2). -/
opaque Config.powerUpEvt : Nat → Nat → EvtCode

/-- FREE VALUE (log entry 5): `VALID` before the first `RESET` (R80, ID2). -/
opaque Config.powerUpValid : Nat → Nat → Bool

end Sys2Proof
end

