-- ==== Sys2Proof/Syntax.lean ====
section
/-! DEFINITION. The block's operations, one constructor a row of spec/opcode_table.json, and the lines
of the test programs (30_encoding.md R47, R48). -/
namespace Sys2Proof

/-- The three per-clock operations (00_scope.md R2, 30_encoding.md R42). The bits an operation ignores
(R44) are no operands of it. -/
inductive Instr where
  /-- `RESET` (40_operations.md R50). -/
  | reset
  /-- `SAMPLE d` (40_operations.md R52); `d` is its one operand, `din` (30_encoding.md R43). -/
  | sample (d : Bool)
  /-- `IDLE` (40_operations.md R51). -/
  | idle
deriving DecidableEq, Repr

/-- One line of a test program: an operation (R47) or a pseudo-operation (R48). -/
inductive AsmLine where
  | op (i : Instr)
  | samples (v : Bool) (k : Nat)
  | wait (k : Nat)
  | poll (v : Bool)
  | polls (v : Bool) (k : Nat)
deriving DecidableEq, Repr

end Sys2Proof
end

