-- ==== Sys2Proof/WellFormed.lean ====
section
/-! DEFINITION. The checks on what is written down: parameters, operations and program lines. -/
namespace Sys2Proof

/-- A depth a configuration may have: `N >= 1` (00_scope.md R4). -/
def depthOk (n : Nat) : Bool := decide (1 ≤ n)

/-- Every operation is well formed, with every operand: no control vector is reserved or illegal
(30_encoding.md R45). -/
def Instr.wellFormed : Instr → Bool
  | .reset => true
  | .sample _ => true
  | .idle => true

/-- A line is well formed when its count, if it has one, is at least 1 (30_encoding.md R48). -/
def AsmLine.wellFormed : AsmLine → Bool
  | .op i => i.wellFormed
  | .samples _ k => decide (1 ≤ k)
  | .wait k => decide (1 ≤ k)
  | .poll _ => true
  | .polls _ k => decide (1 ≤ k)

/-- A program is well formed when each of its lines is. -/
def programWellFormed (p : List AsmLine) : Bool := p.all AsmLine.wellFormed

end Sys2Proof
end

