-- ==== Sys2Proof/Decode.lean ====
section
/-! DEFINITION. From control vectors to operations and back (30_encoding.md), and the expansion of the
pseudo-operations. -/
namespace Sys2Proof

/-- The operation a control vector selects; `rst` takes precedence over `en` (30_encoding.md R42,
60_exceptions.md R71). Total: all eight vectors are operations (R45). -/
def decode (c : Ctl) : Instr :=
  if c.getLsbD 2 then .reset
  else if c.getLsbD 1 then .sample (c.getLsbD 0)
  else .idle

/-- Why bits offered as a control vector are none. -/
inductive DecodeReject where
  /-- A bit above `c[2]` is set: the format has three bits (R41), and no port carries a fourth. -/
  | beyondControlVector
deriving DecidableEq, Repr

/-- The control vector held in a number, its bit 0 being `c[0]`; a number with a bit above `c[2]`
holds none (log entry 7). -/
def ctlOfNat (w : Nat) : Except DecodeReject Ctl :=
  if w < 8 then .ok (BitVec.ofNat 3 w) else .error .beyondControlVector

/-- The operation in a list of bytes, one vector a byte, and the bytes after it. `none` at the end of
the list. -/
def decodeBytes : List (BitVec 8) → Option (Except DecodeReject Instr × List (BitVec 8))
  | [] => none
  | b :: rest =>
    match ctlOfNat b.toNat with
    | .ok c => some (.ok (decode c), rest)
    | .error e => some (.error e, rest)

/-- The operation of an opcode-table word: bit 0 of `w` is `c[0]`, and bits from `nbits` up are 0. -/
def decodeTableWord (nbits w : Nat) : Option Instr :=
  match ctlOfNat (w % 2 ^ nbits) with
  | .ok c => some (decode c)
  | .error _ => none

/-- The canonical control vector of an operation: its ignored bits are 0 (30_encoding.md R47). -/
def encode : Instr → Ctl
  | .reset => 0b100#3
  | .sample false => 0b010#3
  | .sample true => 0b011#3
  | .idle => 0b000#3

/-- A row of the opcode table (30_encoding.md R42, spec/opcode_table.json). -/
structure OpRow where
  mnemonic : String
  mask : Ctl
  pattern : Ctl
deriving DecidableEq, Repr

/-- Whether a row's pattern is met on the bits of its mask. -/
def OpRow.accepts (r : OpRow) (c : Ctl) : Bool := c &&& r.mask == r.pattern

/-- The row of an operation. -/
def Instr.row : Instr → OpRow
  | .reset => { mnemonic := "RESET", mask := 0b100#3, pattern := 0b100#3 }
  | .sample _ => { mnemonic := "SAMPLE", mask := 0b110#3, pattern := 0b010#3 }
  | .idle => { mnemonic := "IDLE", mask := 0b110#3, pattern := 0b000#3 }

/-- The three rows of the table, in its order. -/
def opTable : List OpRow := [Instr.reset.row, (Instr.sample false).row, Instr.idle.row]

/-- The operations a program line stands for (30_encoding.md R47, R48). -/
def AsmLine.expand : AsmLine → List Instr
  | .op i => [i]
  | .samples v k => List.replicate k (.sample v)
  | .wait k => List.replicate k .idle
  | .poll v => [.sample v, .idle]
  | .polls v k => (List.replicate k [.sample v, .idle]).flatten

/-- The operations of a program, one a clock (R47). -/
def expandProgram (p : List AsmLine) : List Instr := (p.map AsmLine.expand).flatten

/-- The control vectors a program drives, in canonical encoding (R47). -/
def assemble (p : List AsmLine) : List Ctl := (expandProgram p).map encode

end Sys2Proof
end

