-- ==== Sys2Proof/Machine/Bits.lean ====
section
/-! DEFINITION. The bit-vector primitives of the spec's notation (00_scope.md R9). -/
namespace Sys2Proof.Machine

/-- `ones_N`: all N bits 1. -/
def ones (n : Nat) : BitVec n := BitVec.allOnes n

/-- `zeros_N`: all N bits 0. -/
def zeros (n : Nat) : BitVec n := 0#n

/-- `fill_N(b)`: all N bits equal to `b`. -/
def fill (n : Nat) (b : Bool) : BitVec n := if b then ones n else zeros n

/-- `unanimous(w)`: all bits are equal. -/
def unanimous {n : Nat} (w : BitVec n) : Bool := w == zeros n || w == ones n

/-- `zext_N(b)`: one bit widened with zeros above. -/
def zext (n : Nat) (b : Bool) : BitVec n := (BitVec.ofBool b).setWidth n

/-- `(WIN << 1) | zext_N(d)`: the newest sample enters at bit 0 and the oldest, bit N-1, is dropped
(10_state.md R16, 40_operations.md R52). -/
def shiftIn {n : Nat} (w : BitVec n) (d : Bool) : BitVec n := (w <<< 1) ||| zext n d

end Sys2Proof.Machine
end

