-- ==== Sys2Proof/Machine/State.lean ====
section
/-! DEFINITION. The state of one instance: its four registers (10_state.md R15), its build-time
parameters, and the drive of its input ports as the step reads it. Plain data throughout. -/
namespace Sys2Proof.Machine

/-- The architectural registers, "exactly these four" (10_state.md R15). -/
structure Regs (n : Nat) where
  /-- `WIN`: the last N samples, bit 0 the newest (R16). -/
  win : BitVec n
  /-- `CONF`: the last confirmed level, a register of its own (R18, R26). -/
  conf : Bool
  /-- `EVT`: the event of the most recent `SAMPLE`, in the code of R17; two bits, `0b11` included. -/
  evt : EvtCode
  /-- `VALID`: 1 in exactly the clock after a `SAMPLE` (R20). -/
  valid : Bool
deriving DecidableEq, Repr

/-- The level of an input port at a clock edge. -/
inductive Level where
  /-- A valid 0. -/
  | low
  /-- A valid 1. -/
  | high
  /-- Set-up or hold violated: what is sampled is not defined (70_reset_and_hazards.md R84, ID4). -/
  | unsettled
deriving DecidableEq, Repr

/-- The three input ports at one rising edge of `clk` (10_state.md R19). -/
structure Pins where
  rst : Level
  en : Level
  din : Level
deriving DecidableEq, Repr

/-- The model's own position in the free values: two instances on different streams draw
independently (log entry 3). -/
structure Draws where
  stream : Nat
  index : Nat
deriving DecidableEq, Repr

/-- One instance of the block, and what the outside presents to it. -/
structure State where
  /-- `N`, `INIT`, `EXPOSE_WIN`: fixed at build time (10_state.md R23, 70_reset_and_hazards.md R88). -/
  cfg : Config
  /-- `WIN`, `CONF`, `EVT`, `VALID`. -/
  regs : Regs cfg.depth
  /-- The levels on the input ports at the coming edges, next edge first; none: `clk` makes no
  further edge (60_exceptions.md R79, log entry 2). -/
  inputs : List Pins
  /-- The model's own field: where the next free value is drawn (log entry 3). -/
  draws : Draws
deriving DecidableEq, Repr

/-- What a model of the block can stop on (60_exceptions.md R67). The hardware itself raises nothing
(R68), and no operation raises any of these. -/
inductive Fault where
  /-- `EVT = 0b11` was observed at the `edge` port (10_state.md R27, ID3). Raised by
  whatever reads that port (`outputs`, a recorded run `readings`, a system's `freshEvents`), never by an
  operation. Safe: unreachable from
  `RESET`, and a fault where the hardware would only show a meaningless code. -/
  | evtReserved
deriving DecidableEq, Repr

/-- What the model does not run. -/
inductive Refusal where
  /-- An operation without a meaning yet; raised by `exec` only. Safe. No arm raises it now. -/
  | notModelled (mnemonic : String)
  /-- A configuration with `N = 0` (00_scope.md R4, 60_exceptions.md R67). Raised by `configure`.
  Safe: no such hardware is built. -/
  | depthZero
  /-- A run from power-up with an operation before its first `RESET` (60_exceptions.md R67,
  70_reset_and_hazards.md R80). Raised by `runFromPowerUp`, never by an operation. Safe. -/
  | runBeforeReset
deriving DecidableEq, Repr

/-- The registers of an instance right after `RESET` (10_state.md R21). -/
def Regs.atReset (cfg : Config) : Regs cfg.depth :=
  { win := fill cfg.depth cfg.init, conf := cfg.init, evt := 0b00#2, valid := false }

/-- An instance of any configuration right after `RESET`, with no edge scheduled and its free values
drawn from the given stream. -/
def State.resetOf (cfg : Config) (stream : Nat) : State :=
  { cfg := cfg, regs := Regs.atReset cfg, inputs := [], draws := { stream := stream, index := 0 } }

/-- The machine right after reset: the firmware instance PWR_SHORT (10_state.md R21; log entry 1 says
why this instance). -/
def State.reset : State := State.resetOf Config.pwrShort 0

end Sys2Proof.Machine
end

