-- ==== Sys2Proof/Machine/Flags.lean ====
section
/-! DEFINITION. The event code and the computation of `CONF` and `EVT` (10_state.md R17, R18, R22;
40_operations.md R52). -/
namespace Sys2Proof.Machine

/-- The two-bit code of an event (10_state.md R17). -/
def eventCode : Event → EvtCode
  | .none => 0b00#2
  | .rise => 0b01#2
  | .fall => 0b10#2

/-- The event a code stands for; `0b11` stands for none (R17, R27). -/
def eventOfCode (c : EvtCode) : Option Event :=
  if c = 0b00#2 then some .none
  else if c = 0b01#2 then some .rise
  else if c = 0b10#2 then some .fall
  else Option.none

/-- The event of a poll that leaves the window at `w` with the level `conf` confirmed before it (R52). -/
def pollEvent {n : Nat} (w : BitVec n) (conf : Bool) : Event :=
  if w = ones n ∧ conf = false then .rise
  else if w = zeros n ∧ conf = true then .fall
  else .none

/-- The level confirmed after that poll (R52). -/
def pollConf {n : Nat} (w : BitVec n) (conf : Bool) : Bool :=
  if w = ones n ∧ conf = false then true
  else if w = zeros n ∧ conf = true then false
  else conf

/-- The event that confirms level `v`: `RISE` to 1, `FALL` to 0 (R17). -/
def eventTo (v : Bool) : Event := if v then .rise else .fall

end Sys2Proof.Machine
end

