-- ==== Sys2Proof/Machine/Operands.lean ====
section
/-! DEFINITION. How a control vector stands on the input ports, and how the ports are sampled at an
edge (10_state.md R19, 30_encoding.md R41, 70_reset_and_hazards.md R84). -/
namespace Sys2Proof.Machine

/-- The control vector of three sampled bits: `c[2] = rst`, `c[1] = en`, `c[0] = din` (R41). -/
def ctlOfBits (r e d : Bool) : Ctl := BitVec.ofBool r ++ BitVec.ofBool e ++ BitVec.ofBool d

/-- The valid level that carries a bit. -/
def levelOfBit (b : Bool) : Level := if b then .high else .low

/-- Ports driven with valid levels. -/
def pinsOfBits (r e d : Bool) : Pins :=
  { rst := levelOfBit r, en := levelOfBit e, din := levelOfBit d }

/-- Ports driven with the bits of a control vector. -/
def pinsOfCtl (c : Ctl) : Pins := pinsOfBits (c.getLsbD 2) (c.getLsbD 1) (c.getLsbD 0)

/-- The bit sampled from a port, and the position of the next free value: an unsettled level is a free
draw of 0 or 1 and uses one up (R84, ID4). -/
def sampleLevel (l : Level) (k : Draws) : Bool × Draws :=
  match l with
  | .low => (false, k)
  | .high => (true, k)
  | .unsettled => (Config.freeLevel k.stream k.index, { k with index := k.index + 1 })

/-- The control vector sampled at an edge, and the position of the next free value. -/
def samplePins (p : Pins) (k : Draws) : Ctl × Draws :=
  let r := sampleLevel p.rst k
  let e := sampleLevel p.en r.2
  let d := sampleLevel p.din e.2
  (ctlOfBits r.1 e.1 d.1, d.2)

end Sys2Proof.Machine
end

