-- ==== Sys2Proof/Machine/Ops.lean ====
section
/-! DEFINITION. The shared operations on an instance: the one write of all its registers at an edge
(20_memory.md R35), the register transfers of the three operations, the sampling of the next edge,
configuration and power-up. The block takes no exception (60_exceptions.md R68, R74), so there is no
exception entry or return here. -/
namespace Sys2Proof.Machine

/-- The register transfer of `RESET` (40_operations.md R50). -/
def regsReset (cfg : Config) : Regs cfg.depth :=
  { win := fill cfg.depth cfg.init, conf := cfg.init, evt := eventCode .none, valid := false }

/-- The register transfer of `IDLE` (40_operations.md R51). -/
def regsIdle {n : Nat} (r : Regs n) : Regs n := { r with valid := false }

/-- The register transfer of `SAMPLE d` (40_operations.md R52); every right-hand side reads the values
before the edge (00_scope.md R9). -/
def regsSample {n : Nat} (d : Bool) (r : Regs n) : Regs n :=
  { win := shiftIn r.win d
    conf := pollConf (shiftIn r.win d) r.conf
    evt := eventCode (pollEvent (shiftIn r.win d) r.conf)
    valid := true }

/-- The one write of an edge: all four registers together, nothing else (20_memory.md R35). -/
def writeRegs (s : State) (r : Regs s.cfg.depth) : State := { s with regs := r }

/-- Present `p` at the next edge in place of what was scheduled for it. -/
def presentNext (s : State) (p : Pins) : State := { s with inputs := p :: s.inputs.tail }

/-- Present nothing: `clk` makes no further edge. -/
def stopClock (s : State) : State := { s with inputs := [] }

/-- The next edge: the control vector sampled from the ports and the state past that edge's entry.
`none` when no edge is scheduled (60_exceptions.md R79, log entry 2). -/
def fetchEdge (s : State) : Option (Ctl × State) :=
  match s.inputs with
  | [] => Option.none
  | p :: rest =>
    some ((samplePins p s.draws).1, { s with inputs := rest, draws := (samplePins p s.draws).2 })

/-- The configuration with these parameters; `N = 0` is refused (00_scope.md R4, 60_exceptions.md R67). -/
def configure (n : Nat) (init exposeWin : Bool) : Except Refusal Config :=
  if h : 1 ≤ n then .ok { depth := n, init := init, exposeWin := exposeWin, depth_pos := h }
  else .error .depthZero

/-- An instance at power-up, before any `RESET`: every register is a free value (R80, ID2). -/
def powerUp (cfg : Config) (k : Draws) : State :=
  { cfg := cfg
    regs :=
      { win := Config.powerUpWin k.stream k.index cfg.depth
        conf := Config.powerUpConf k.stream k.index
        evt := Config.powerUpEvt k.stream k.index
        valid := Config.powerUpValid k.stream k.index }
    inputs := []
    draws := { k with index := k.index + 1 } }

/-- The supply removed and restored: all registers are lost, the parameters and the drive are not
(60_exceptions.md R79). -/
def powerCycle (s : State) : State :=
  writeRegs { s with draws := { s.draws with index := s.draws.index + 1 } }
    (powerUp s.cfg s.draws).regs

end Sys2Proof.Machine
end

