-- ==== Sys2Proof/Machine/Polling.lean ====
section
/-! DEFINITION. The meanings of `SAMPLE` and `IDLE`: a clock with a poll and a clock without one
(40_operations.md R51, R52). -/
namespace Sys2Proof.Machine

/-- `SAMPLE d` performs one poll (R52). -/
def execSample (d : Bool) (s : State) : Host.Outcome State Fault Refusal :=
  .next (writeRegs s (regsSample d s.regs))

/-- `IDLE` is a clock with no poll (R51). -/
def execIdle (s : State) : Host.Outcome State Fault Refusal := .next (writeRegs s (regsIdle s.regs))

end Sys2Proof.Machine
end

