-- ==== Sys2Proof/Machine/Startup.lean ====
section
/-! DEFINITION. The meaning of `RESET`, the block's only system operation (40_operations.md R50, R66). -/
namespace Sys2Proof.Machine

/-- `RESET` puts the instance into its startup state, whatever state it was in (R50). -/
def execReset (s : State) : Host.Outcome State Fault Refusal := .next (writeRegs s (regsReset s.cfg))

end Sys2Proof.Machine
end

