-- ==== Sys2Proof/Machine/Dispatch.lean ====
section
/-! DEFINITION. One arm per operation of the opcode table. -/
namespace Sys2Proof.Machine

def exec (i : Instr) (s : State) : Host.Outcome State Fault Refusal :=
  match i with
  | .reset => Sys2Proof.Machine.execReset s
  | .sample d => Sys2Proof.Machine.execSample d s
  | .idle => Sys2Proof.Machine.execIdle s

end Sys2Proof.Machine
end

