-- ==== Sys2Proof/Machine/Step.lean ====
section
/-! DEFINITION. One rising edge of `clk`, and the placing of a control vector at the next edge. -/
namespace Sys2Proof.Machine

/-- One step: the next edge performs the operation its control vector selects (30_encoding.md R41,
40_operations.md R49). With no edge scheduled `clk` is stopped and everything is kept
(60_exceptions.md R79, log entry 2). -/
def step (s : State) : Host.Outcome State Fault Refusal :=
  match fetchEdge s with
  | some (c, t) => exec (decode c) t
  | none => .next s

/-- `s` with the control vector of an opcode-table word on its input ports at the very next edge. A
word that holds no control vector cannot be presented: no edge happens (log entry 7). -/
def State.withFetchWord (s : State) (nbits w : Nat) : State :=
  match ctlOfNat (w % 2 ^ nbits) with
  | .ok c => presentNext s (pinsOfCtl c)
  | .error _ => stopClock s

end Sys2Proof.Machine
end

