-- ==== Sys2Proof/Machine/Assembler.lean ====
section
/-! DEFINITION. The text of a test program line (30_encoding.md R47, R48), as a list of characters. -/
namespace Sys2Proof.Machine

/-- Why a line of text is no program line. -/
inductive AsmReject where
  /-- Its first word is no operation and no pseudo-operation. -/
  | unknownMnemonic
  /-- Its operands are not those of its mnemonic, or a count is 0 (R48: `k >= 1`). -/
  | badOperands
deriving DecidableEq, Repr

/-- The words of a line, `word` being the one read so far, last character first; spaces, tabs and
commas separate, and `;` starts a comment (R47, log entry 13). -/
def words (word : List Char) : List Char → List (List Char)
  | [] => if word.isEmpty then [] else [word.reverse]
  | c :: cs =>
    if c = ';' then (if word.isEmpty then [] else [word.reverse])
    else if c = ' ' ∨ c = '\t' ∨ c = ',' then
      (if word.isEmpty then words [] cs else word.reverse :: words [] cs)
    else words (c :: word) cs

/-- A bit operand. -/
def parseBit : List Char → Option Bool
  | ['0'] => some false
  | ['1'] => some true
  | _ => none

/-- A decimal number read after the digits that make `n`. -/
def parseDigits (n : Nat) : List Char → Option Nat
  | [] => some n
  | c :: cs => if c.isDigit then parseDigits (10 * n + (c.toNat - 48)) cs else none

/-- A count operand: a decimal number, at least 1 (R48). -/
def parseCount : List Char → Option Nat
  | [] => none
  | c :: cs =>
    match parseDigits 0 (c :: cs) with
    | some n => if 1 ≤ n then some n else none
    | none => none

/-- The names of R47 and R48. -/
inductive AsmName where
  | reset
  | sample
  | idle
  | samples
  | wait
  | poll
  | polls
deriving DecidableEq, Repr

/-- The name a word spells. -/
def parseName : List Char → Option AsmName
  | ['R', 'E', 'S', 'E', 'T'] => some .reset
  | ['S', 'A', 'M', 'P', 'L', 'E'] => some .sample
  | ['I', 'D', 'L', 'E'] => some .idle
  | ['S', 'A', 'M', 'P', 'L', 'E', 'S'] => some .samples
  | ['W', 'A', 'I', 'T'] => some .wait
  | ['P', 'O', 'L', 'L'] => some .poll
  | ['P', 'O', 'L', 'L', 'S'] => some .polls
  | _ => none

/-- The line of a name with one bit operand. -/
def lineOfBit (f : Bool → AsmLine) (b : List Char) : Except AsmReject AsmLine :=
  match parseBit b with
  | some v => .ok (f v)
  | none => .error .badOperands

/-- The line of a name with one count operand. -/
def lineOfCount (f : Nat → AsmLine) (n : List Char) : Except AsmReject AsmLine :=
  match parseCount n with
  | some k => .ok (f k)
  | none => .error .badOperands

/-- The line of a name with a bit and a count operand. -/
def lineOfBitCount (f : Bool → Nat → AsmLine) (b n : List Char) : Except AsmReject AsmLine :=
  match parseBit b, parseCount n with
  | some v, some k => .ok (f v k)
  | _, _ => .error .badOperands

/-- The line of a name and its operand words. DESIGN CHOICE (log entry 13): words after an operation's
operands are rejected, so also the form `RESET (rst=1, en=1, din=1)` in which the tables of
95_test_vectors.md (P5, lines 3, 6 and 8) name the levels of ignored bits. R47 gives no such form; a
vector with ignored bits set is driven as a vector (`driveWith`). -/
def lineOfWords (m : AsmName) (args : List (List Char)) : Except AsmReject AsmLine :=
  match m, args with
  | .reset, [] => .ok (.op .reset)
  | .sample, [b] => lineOfBit (fun v => .op (.sample v)) b
  | .idle, [] => .ok (.op .idle)
  | .samples, [b, n] => lineOfBitCount .samples b n
  | .wait, [n] => lineOfCount .wait n
  | .poll, [b] => lineOfBit .poll b
  | .polls, [b, n] => lineOfBitCount .polls b n
  | _, _ => .error .badOperands

/-- One line of text: nothing for a line without words, else a program line (R47). -/
def parseLine (text : List Char) : Except AsmReject (Option AsmLine) :=
  match words [] text with
  | [] => .ok none
  | w :: args =>
    match parseName w with
    | none => .error .unknownMnemonic
    | some m =>
      match lineOfWords m args with
      | .ok l => .ok (some l)
      | .error e => .error e

/-- A program text, given line by line; the first line that is none rejects it. -/
def parseProgram : List (List Char) → Except AsmReject (List AsmLine)
  | [] => .ok []
  | t :: ts =>
    match parseLine t, parseProgram ts with
    | .error e, _ => .error e
    | .ok _, .error e => .error e
    | .ok none, .ok ls => .ok ls
    | .ok (some l), .ok ls => .ok (l :: ls)

end Sys2Proof.Machine
end

