-- ==== Sys2Proof/Machine/Ports.lean ====
section
/-! DEFINITION. The output ports: functions of the registers alone (10_state.md R19, R24), read
without side effect (20_memory.md R36). -/
namespace Sys2Proof.Machine

/-- The values on the output ports of an instance of depth `n` (10_state.md R19). -/
structure Outputs (n : Nat) where
  level : Bool
  edge : Event
  valid : Bool
  riseP : Bool
  fallP : Bool
  /-- The `win` port, present only when `EXPOSE_WIN = 1` (00_scope.md R6). -/
  win : Option (BitVec n)
deriving DecidableEq, Repr

/-- `rise_p = VALID & (EVT == 0b01)` (R19). -/
def portRiseP {n : Nat} (r : Regs n) : Bool := r.valid && r.evt == 0b01#2

/-- `fall_p = VALID & (EVT == 0b10)` (R19). -/
def portFallP {n : Nat} (r : Regs n) : Bool := r.valid && r.evt == 0b10#2

/-- `edge`, read as an event; the code `0b11` is a fault, never an event (R27, ID3). -/
def portEdge {n : Nat} (r : Regs n) : Except Fault Event :=
  match eventOfCode r.evt with
  | some e => .ok e
  | none => .error .evtReserved

/-- `win`, when the build exposes it (R6, R19). -/
def portWin (s : State) : Option (BitVec s.cfg.depth) :=
  if s.cfg.exposeWin then some s.regs.win else none

/-- All output ports, read together (R19, 60_exceptions.md R67). -/
def outputs (s : State) : Except Fault (Outputs s.cfg.depth) :=
  match portEdge s.regs with
  | .ok e =>
    .ok { level := s.regs.conf, edge := e, valid := s.regs.valid, riseP := portRiseP s.regs,
          fallP := portFallP s.regs, win := portWin s }
  | .error f => .error f

end Sys2Proof.Machine
end

