-- ==== Sys2Proof/Machine/Run.lean ====
section
/-! DEFINITION. Runs of operations on one instance, the events of their polls, and what a consumer
that reads the outputs after every edge records. -/
namespace Sys2Proof.Machine

/-- The operations one after another, one an edge, stopping at the first fault or refusal. -/
def runOps : List Instr → State → Host.Outcome State Fault Refusal
  | [], s => .next s
  | i :: is, s =>
    match exec i s with
    | .next t => runOps is t
    | .fault f => .fault f
    | .refused r => .refused r

/-- Whether an operation is a poll (00_scope.md R11). -/
def isPoll : Instr → Bool
  | .reset => false
  | .sample _ => true
  | .idle => false

/-- How many polls a list of operations makes. -/
def pollCount (is : List Instr) : Nat := is.countP isPoll

/-- The `EVT` code after each poll of a run, in order: one entry a `SAMPLE` (40_operations.md R54's
`EVT_k`). A `SAMPLE` writes no `0b11` (10_state.md R17), so every entry is an event's code. -/
def pollCodes : List Instr → State → List EvtCode
  | [], _ => []
  | i :: is, s =>
    match exec i s with
    | .next t => if isPoll i then t.regs.evt :: pollCodes is t else pollCodes is t
    | .fault _ => []
    | .refused _ => []

/-- The codes of the events of a run, in order: the polls that report `NONE` left out (R55). -/
def eventCodes (is : List Instr) (s : State) : List EvtCode :=
  (pollCodes is s).filter (fun c => c != eventCode .none)

/-- What a consumer records of one clock: the outputs and the number of the poll they belong to
(70_reset_and_hazards.md R86; log entry 11). -/
structure Reading where
  /-- Polls since the last `RESET` (00_scope.md R10). -/
  poll : Nat
  level : Bool
  edge : Event
  valid : Bool
  riseP : Bool
  fallP : Bool
deriving DecidableEq, Repr

/-- The number of the most recent poll after an operation; `RESET` restarts the numbering (R10). -/
def nextPoll (i : Instr) (k : Nat) : Nat :=
  match i with
  | .reset => 0
  | .sample _ => k + 1
  | .idle => k

/-- One reading of the outputs: a fault if `EVT = 0b11` is met (10_state.md R27). -/
def reading (poll : Nat) (s : State) : Except Fault Reading :=
  match outputs s with
  | .ok o =>
    .ok { poll := poll, level := o.level, edge := o.edge, valid := o.valid, riseP := o.riseP,
          fallP := o.fallP }
  | .error f => .error f

/-- The readings after each edge of a run (60_exceptions.md R70). -/
def readings : Nat → List Instr → State → Host.Outcome (List Reading) Fault Refusal
  | _, [], _ => .next []
  | k, i :: is, s =>
    match exec i s with
    | .fault f => .fault f
    | .refused r => .refused r
    | .next t =>
      match reading (nextPoll i k) t with
      | .error f => .fault f
      | .ok x =>
        match readings (nextPoll i k) is t with
        | .next xs => .next (x :: xs)
        | .fault f => .fault f
        | .refused r => .refused r

/-- A run from power-up: refused when an operation other than `RESET` stands before the first `RESET`
(60_exceptions.md R67, 70_reset_and_hazards.md R80, R83). -/
def runFromPowerUp (cfg : Config) (k : Draws) (is : List Instr) :
    Host.Outcome State Fault Refusal :=
  match is with
  | [] => .next (powerUp cfg k)
  | .reset :: rest => runOps (.reset :: rest) (powerUp cfg k)
  | .sample _ :: _ => .refused .runBeforeReset
  | .idle :: _ => .refused .runBeforeReset

/-- The ports driven with these control vectors at the coming edges, then `clk` stopped. -/
def driveWith (cs : List Ctl) (s : State) : State := { s with inputs := cs.map pinsOfCtl }

end Sys2Proof.Machine
end

