-- ==== Sys2Proof/Machine/RunLength.lean ====
section
/-! DEFINITION. Another circuit for the same block: a run-length counter in place of the shift register
(40_operations.md R53, ID9; log entry 12). It is no part of the machine; it is here so that the freedom
R53 gives can be stated. -/
namespace Sys2Proof.Machine

/-- The registers of the counter circuit: the newest sample, the length of the run it ends (held at N),
and the three registers the two circuits have in common. -/
structure RunRegs where
  last : Bool
  run : Nat
  conf : Bool
  evt : EvtCode
  valid : Bool
deriving DecidableEq, Repr

/-- After `RESET` the last N samples count as samples of `INIT` (00_scope.md R10). -/
def runReset (cfg : Config) : RunRegs :=
  { last := cfg.init, run := cfg.depth, conf := cfg.init, evt := eventCode .none, valid := false }

/-- The length of the run that the sample `d` ends, held at the depth. -/
def runLength (n : Nat) (d : Bool) (r : RunRegs) : Nat := if d = r.last then min n (r.run + 1) else 1

/-- A poll of the counter circuit: a run of N that differs from the confirmed level confirms it. -/
def runSample (n : Nat) (d : Bool) (r : RunRegs) : RunRegs :=
  { last := d
    run := runLength n d r
    conf := if n ≤ runLength n d r then d else r.conf
    evt := if n ≤ runLength n d r ∧ r.conf ≠ d then eventCode (eventTo d) else eventCode .none
    valid := true }

/-- One edge of the counter circuit. -/
def runExec (cfg : Config) (i : Instr) (r : RunRegs) : RunRegs :=
  match i with
  | .reset => runReset cfg
  | .sample d => runSample cfg.depth d r
  | .idle => { r with valid := false }

/-- The circuit after a list of operations. -/
def runExecs (cfg : Config) (is : List Instr) (r : RunRegs) : RunRegs :=
  is.foldl (fun q i => runExec cfg i q) r

/-- Whether the two circuits show the same on `level`, `edge`, `valid`, `rise_p` and `fall_p`. The counter
circuit keeps no window, so it has no `win` port and is a circuit for `EXPOSE_WIN = 0` (R53). -/
abbrev SamePorts {n : Nat} (r : Regs n) (q : RunRegs) : Prop :=
  r.conf = q.conf ∧ r.evt = q.evt ∧ r.valid = q.valid ∧
  portRiseP r = (q.valid && q.evt == eventCode .rise) ∧
  portFallP r = (q.valid && q.evt == eventCode .fall)

end Sys2Proof.Machine
end

