-- ==== Sys2Proof/Machine/System.lean ====
section
/-! DEFINITION. Several instances: the pair of 40_operations.md R60, and a system of any number of
instances (60_exceptions.md R77). Instances share no state. -/
namespace Sys2Proof.Machine

/-- Two instances over one drive: S and L (R60). -/
structure Pair where
  short : State
  long : State
deriving DecidableEq, Repr

/-- What R60 requires of a pair's parameters: `N_S < N_L` and the same `INIT`. -/
abbrev Pair.matched (p : Pair) : Prop :=
  p.short.cfg.depth < p.long.cfg.depth ∧ p.short.cfg.init = p.long.cfg.init

/-- Two outcomes at one edge: both states, or what the first of them stops on. -/
def pairOutcome (a b : Host.Outcome State Fault Refusal) : Host.Outcome Pair Fault Refusal :=
  match a, b with
  | .next s, .next l => .next { short := s, long := l }
  | .next _, .fault f => .fault f
  | .next _, .refused r => .refused r
  | .fault f, _ => .fault f
  | .refused r, _ => .refused r

/-- One edge of a pair: the same operation on both instances (R47, R60). -/
def execPair (i : Instr) (p : Pair) : Host.Outcome Pair Fault Refusal :=
  pairOutcome (exec i p.short) (exec i p.long)

/-- A program run on a pair: each line drives both instances at the same edge (R47). -/
def runPair : List Instr → Pair → Host.Outcome Pair Fault Refusal
  | [], p => .next p
  | i :: is, p =>
    match execPair i p with
    | .next q => runPair is q
    | .fault f => .fault f
    | .refused r => .refused r

/-- The events of a pair's polls, in order: S's code and L's code at each poll. -/
def pairPollCodes : List Instr → Pair → List (EvtCode × EvtCode)
  | [], _ => []
  | i :: is, p =>
    match execPair i p with
    | .next q =>
      if isPoll i then (q.short.regs.evt, q.long.regs.evt) :: pairPollCodes is q
      else pairPollCodes is q
    | .fault _ => []
    | .refused _ => []

/-- The firmware's pair on the power button (R7, R60), right after reset. -/
def Pair.firmware : Pair :=
  { short := State.resetOf Config.pwrShort 0, long := State.resetOf Config.pwrLong 1 }

/-- One edge of a system, each instance with its own drive and all at the same edge
(20_memory.md R39, 60_exceptions.md R77); the first instance that stops, stops the run. -/
def stepSystem : List State → Host.Outcome (List State) Fault Refusal
  | [] => .next []
  | s :: ss =>
    match step s with
    | .fault f => .fault f
    | .refused r => .refused r
    | .next t =>
      match stepSystem ss with
      | .next ts => .next (t :: ts)
      | .fault f => .fault f
      | .refused r => .refused r

/-- The firmware's three instances right after reset, each on a stream of free values of its own
(00_scope.md R7, log entry 3). -/
def firmwareSystem : List State :=
  [State.resetOf Config.pwrShort 0, State.resetOf Config.pwrLong 1, State.resetOf Config.rstLong 2]

/-- The events the instances of a list report in the current clock, the first instance having place `k`.
Every instance's `edge` port is read, so `EVT = 0b11` on any of them is a fault, never an event
(10_state.md R27, 60_exceptions.md R67). -/
def freshEventsFrom (k : Nat) : List State → Except Fault (List (Nat × Event))
  | [] => .ok []
  | s :: ss =>
    match portEdge s.regs, freshEventsFrom (k + 1) ss with
    | .error f, _ => .error f
    | .ok _, .error f => .error f
    | .ok e, .ok es => .ok (if s.regs.valid && e != .none then (k, e) :: es else es)

/-- The events a system reports in the current clock, each with its instance's place in the list. -/
def freshEvents (sys : List State) : Except Fault (List (Nat × Event)) := freshEventsFrom 0 sys

/-- An order in which a consumer may handle the events of one edge: any order of them, the block defining
none (60_exceptions.md R73, ID5). That an order has each event once is log entry 14. Where `EVT = 0b11`
is observed there is no order, since there are no events but a fault. -/
def HandlingOrder (sys : List State) (order : List (Nat × Event)) : Prop :=
  ∃ evs, freshEvents sys = .ok evs ∧ order.Perm evs

end Sys2Proof.Machine
end

