-- ==== Sys2Proof/Safety.lean ====
section
/-! DEFINITION. What a safe state of an instance is, in the terms the claims use. -/
namespace Sys2Proof.Machine

/-- A full window agrees with the confirmed level (10_state.md R25). -/
abbrev WindowAgrees {n : Nat} (r : Regs n) : Prop := unanimous r.win = true → r.conf = r.win.getLsbD 0

/-- `EVT` holds an event code, and a showing event stands with the window and the level that made it:
no `SAMPLE` or `RESET` came since (10_state.md R17, 40_operations.md R52). -/
abbrev EventAgrees {n : Nat} (r : Regs n) : Prop :=
  r.evt ≠ 0b11#2 ∧
  (r.evt = eventCode .rise → r.win = ones n ∧ r.conf = true) ∧
  (r.evt = eventCode .fall → r.win = zeros n ∧ r.conf = false)

/-- The invariant of the reachable states. -/
abbrev State.Inv (s : State) : Prop := WindowAgrees s.regs ∧ EventAgrees s.regs

/-- `s` is a state after some run that begins with `RESET` (10_state.md R25, R28). -/
def Reachable (s : State) : Prop :=
  ∃ (s0 : State) (is : List Instr), s0.cfg = s.cfg ∧ runOps (.reset :: is) s0 = .next s

/-- The invariant of a pair driven together since a common `RESET`: each member keeps its own
invariant, and the short window is the newest part of the long one (40_operations.md R60, R61). -/
def Pair.Inv (p : Pair) : Prop :=
  p.matched ∧ p.short.Inv ∧ p.long.Inv ∧
  p.short.regs.win = p.long.regs.win.setWidth p.short.cfg.depth

/-- How the counter circuit stands to the block (40_operations.md R53, log entry 12): it shows the same,
and its counter is the length of the run of equal samples at the new end of the window. -/
def CounterAgrees {n : Nat} (r : Regs n) (q : RunRegs) : Prop :=
  SamePorts r q ∧ 1 ≤ q.run ∧ q.run ≤ n ∧ (∀ i, i < q.run → r.win.getLsbD i = q.last) ∧
  (q.run < n → r.win.getLsbD q.run = !q.last)

/-- No `RESET` among the operations. -/
abbrev ResetFree (is : List Instr) : Prop := Instr.reset ∉ is

/-- The samples of a list of operations, in order: R10's `x_1, x_2, ...` when it follows a `RESET`. -/
def samplesOf : List Instr → List Bool
  | [] => []
  | .sample d :: is => d :: samplesOf is
  | .reset :: is => samplesOf is
  | .idle :: is => samplesOf is

/-- The sample taken `i` polls before the newest of `xs`, the reset fill counting as samples of `INIT`
(00_scope.md R10: `x_{k-i}`). -/
def sampleBack (init : Bool) (xs : List Bool) (i : Nat) : Bool := xs.reverse.getD i init

/-- What a run of exactly `m` samples of `v` reports on an instance of depth `n` that had `not v`
confirmed and sampled last: the event to `v` at its `n`-th sample and nothing else
(40_operations.md R59). -/
def runReports (n m : Nat) (v : Bool) : List EvtCode :=
  if n ≤ m then
    List.replicate (n - 1) (eventCode .none) ++
      eventCode (eventTo v) :: List.replicate (m - n) (eventCode .none)
  else List.replicate m (eventCode .none)

/-- The same instance built with another `EXPOSE_WIN`. -/
def withExposeWin (b : Bool) (s : State) : State :=
  { cfg := { s.cfg with exposeWin := b }, regs := s.regs, inputs := s.inputs, draws := s.draws }

/-- `(WIN, CONF) = (w, c)` is reachable from `RESET` on an instance of configuration `cfg`
(10_state.md R28). -/
def ReachablePair (cfg : Config) (w : BitVec cfg.depth) (c : Bool) : Prop :=
  ∃ (r : Regs cfg.depth) (ins : List Pins) (k : Draws),
    r.win = w ∧ r.conf = c ∧ Reachable { cfg := cfg, regs := r, inputs := ins, draws := k }

end Sys2Proof.Machine
end

