-- ==== Sys2Proof/Certificates/Slice0/Obligations.lean ====
section
/-! DEFINITION. The statements for the provers. Every statement that has a free value in it holds for
every value of it. -/

open Sys2Proof Sys2Proof.Machine

/-! ### Encoding -/

/-- 30_encoding.md R42: the table of the eight vectors, the three masks and matches, and that the three
patterns are disjoint and cover all vectors. -/
def Obligations.DecodeFollowsTheTable : Prop :=
  decode 0b000#3 = .idle ∧ decode 0b001#3 = .idle ∧
  decode 0b010#3 = .sample false ∧ decode 0b011#3 = .sample true ∧
  decode 0b100#3 = .reset ∧ decode 0b101#3 = .reset ∧
  decode 0b110#3 = .reset ∧ decode 0b111#3 = .reset ∧
  (∀ c : Ctl, c &&& 0b100#3 = 0b100#3 ↔ decode c = .reset) ∧
  (∀ c : Ctl, c &&& 0b110#3 = 0b010#3 ↔ decode c = .sample (c.getLsbD 0)) ∧
  (∀ c : Ctl, c &&& 0b110#3 = 0b000#3 ↔ decode c = .idle) ∧
  (∀ c : Ctl, opTable.countP (fun r => r.accepts c) = 1)

/-- 30_encoding.md R47: decoding the canonical vector of an operation gives it back, as a vector and as
an opcode-table word of any width that holds it; encoding what a vector decodes to gives the vector
back on the bits the operation does not ignore (R44). The last clause, that a word with a bit above
`c[2]` decodes to nothing, is the model's own choice (log entry 7). -/
def Obligations.DecodeOfEncode : Prop :=
  (∀ i : Instr, decode (encode i) = i) ∧
  (∀ (i : Instr) (nbits : Nat), 3 ≤ nbits → decodeTableWord nbits (encode i).toNat = some i) ∧
  (∀ c : Ctl, encode (decode c) &&& (decode c).row.mask = c &&& (decode c).row.mask) ∧
  (∀ nbits w : Nat, 8 ≤ w % 2 ^ nbits → decodeTableWord nbits w = none)

/-- 30_encoding.md R44: with `rst = 1` the levels of `en` and `din`, and with `rst = en = 0` the level of
`din`, have no effect on the step. -/
def Obligations.IgnoredBitsHaveNoEffect : Prop :=
  ∀ (s : State) (rest : List Pins) (e e' d d' : Bool),
    step { s with inputs := pinsOfBits true e d :: rest } =
      step { s with inputs := pinsOfBits true e' d' :: rest } ∧
    step { s with inputs := pinsOfBits false false d :: rest } =
      step { s with inputs := pinsOfBits false false d' :: rest }

/-- 30_encoding.md R48: the expansion of each pseudo-operation, and that a count is at least 1. -/
def Obligations.PseudoOperationsExpand : Prop :=
  (∀ v k, (AsmLine.samples v k).expand = List.replicate k (.sample v)) ∧
  (∀ k, (AsmLine.wait k).expand = List.replicate k .idle) ∧
  (∀ v, (AsmLine.poll v).expand = (AsmLine.op (.sample v)).expand ++ (AsmLine.op .idle).expand) ∧
  (∀ v k, (AsmLine.polls v k).expand = (List.replicate k (AsmLine.poll v).expand).flatten) ∧
  (∀ v k, (AsmLine.samples v k).wellFormed = true ↔ 1 ≤ k) ∧
  (∀ k, (AsmLine.wait k).wellFormed = true ↔ 1 ≤ k) ∧
  (∀ v k, (AsmLine.polls v k).wellFormed = true ↔ 1 ≤ k)

/-- Every program line the assembler accepts is well formed (30_encoding.md R48: `k >= 1`). The text
form itself is log entry 13. -/
def Obligations.AcceptedLinesAreWellFormed : Prop :=
  ∀ (text : List (List Char)) (p : List AsmLine),
    parseProgram text = .ok p → programWellFormed p = true

/-! ### Steps -/

/-- 40_operations.md R49: an edge performs exactly one operation, the one its sampled control vector
selects, completes, and takes exactly one entry of the drive. (What an unsettled level is sampled as is
log entry 3; the statement holds for every value of it.) -/
def Obligations.EachEdgePerformsOneOperation : Prop :=
  ∀ (s : State) (p : Pins) (rest : List Pins), s.inputs = p :: rest →
    step s = exec (decode (samplePins p s.draws).1)
      { s with inputs := rest, draws := (samplePins p s.draws).2 } ∧
    ∃ t, step s = .next t ∧ t.inputs = rest

/-- 30_encoding.md R41: `c[2] = rst`, `c[1] = en`, `c[0] = din`. With valid levels on the ports a step is
`exec` of the decoded vector on the state past that edge's entry, and no free value is used. -/
def Obligations.StepRunsTheDecodedVector : Prop :=
  ∀ (s : State) (r e d : Bool) (rest : List Pins), s.inputs = pinsOfBits r e d :: rest →
    (ctlOfBits r e d).getLsbD 2 = r ∧ (ctlOfBits r e d).getLsbD 1 = e ∧
    (ctlOfBits r e d).getLsbD 0 = d ∧
    step s = exec (decode (ctlOfBits r e d)) { s with inputs := rest }

/-- 60_exceptions.md R71: with `rst = en = 1` the edge is a `RESET` and the sample is discarded; the
other levels conflict in nothing. -/
def Obligations.ResetDominatesEnable : Prop :=
  ∀ (s : State) (d : Bool) (rest : List Pins),
    step { s with inputs := pinsOfBits true true d :: rest } = exec .reset { s with inputs := rest } ∧
    step { s with inputs := pinsOfBits true false d :: rest } = exec .reset { s with inputs := rest } ∧
    step { s with inputs := pinsOfBits false true d :: rest } =
      exec (.sample d) { s with inputs := rest } ∧
    step { s with inputs := pinsOfBits false false d :: rest } = exec .idle { s with inputs := rest }

/-- 70_reset_and_hazards.md R84 and ID4, with the model's form of the free draw (log entry 3): a poll on
an unsettled `din` is a `SAMPLE` of a free bit; an unsettled `rst` makes the edge a `RESET` or what the
other levels select, an unsettled `en` a `SAMPLE` or an `IDLE`, by a free bit; and with any levels each
unsettled one is a free bit of its own, the valid ones are as driven. -/
def Obligations.UnsettledSampleIsAFreeDraw : Prop :=
  (∀ (s : State) (rest : List Pins),
    s.inputs = { rst := .low, en := .high, din := .unsettled } :: rest →
    step s = exec (.sample (Config.freeLevel s.draws.stream s.draws.index))
      { s with inputs := rest, draws := { s.draws with index := s.draws.index + 1 } }) ∧
  (∀ (s : State) (e d : Bool) (rest : List Pins),
    s.inputs = { rst := .unsettled, en := levelOfBit e, din := levelOfBit d } :: rest →
    step s = exec
      (if Config.freeLevel s.draws.stream s.draws.index then .reset
       else if e then .sample d else .idle)
      { s with inputs := rest, draws := { s.draws with index := s.draws.index + 1 } }) ∧
  (∀ (s : State) (d : Bool) (rest : List Pins),
    s.inputs = { rst := .low, en := .unsettled, din := levelOfBit d } :: rest →
    step s = exec
      (if Config.freeLevel s.draws.stream s.draws.index then .sample d else .idle)
      { s with inputs := rest, draws := { s.draws with index := s.draws.index + 1 } }) ∧
  (∀ (s : State) (p : Pins) (rest : List Pins) (bit : Level → Nat → Bool) (used : Level → Nat),
    s.inputs = p :: rest →
    (∀ k, bit .low k = false ∧ bit .high k = true ∧
      bit .unsettled k = Config.freeLevel s.draws.stream k) →
    used .low = 0 ∧ used .high = 0 ∧ used .unsettled = 1 →
    step s = exec
      (decode (ctlOfBits (bit p.rst s.draws.index)
        (bit p.en (s.draws.index + used p.rst))
        (bit p.din (s.draws.index + used p.rst + used p.en))))
      { s with
        inputs := rest
        draws := { s.draws with index := s.draws.index + used p.rst + used p.en + used p.din } })

/-- The vector of an opcode-table word is performed by the very next step (the model's placing of it on
the ports, log entry 2). -/
def Obligations.FetchedWordIsPerformed : Prop :=
  ∀ (s : State) (nbits w : Nat), w < 8 → 3 ≤ nbits →
    step (s.withFetchWord nbits w) =
      exec (decode (BitVec.ofNat 3 w)) { s with inputs := s.inputs.tail }

/-- 70_reset_and_hazards.md R82: `en` held at 1 for k edges performs k `SAMPLE` operations, one an edge,
of the levels of `din` at those edges. -/
def Obligations.HeldStrobeSamplesEveryEdge : Prop :=
  ∀ (ds : List Bool) (s : State) (rest : List Pins),
    s.inputs = ds.map (fun d => pinsOfBits false true d) ++ rest →
    Host.Core.run core ds.length s = runOps (ds.map Instr.sample) { s with inputs := rest } ∧
    ∃ t, Host.Core.run core ds.length s = .next t ∧ t.inputs = rest

/-- 30_encoding.md R47 and R48: driving the assembled vectors of a program onto the ports, one a clock,
runs exactly the operations its lines expand to. -/
def Obligations.AssembledProgramRunsItsOperations : Prop :=
  ∀ (p : List AsmLine) (s : State),
    Host.Core.run core (assemble p).length (driveWith (assemble p) s) =
      runOps (expandProgram p) { s with inputs := [] }

/-- 60_exceptions.md section 10: a stopped `clk` keeps everything, `VALID` included, while any number of
`IDLE` operations keeps `WIN`, `CONF` and `EVT`; after the supply was removed a `RESET` still reaches
the startup registers. That an empty drive is a stopped clock is log entry 2. -/
def Obligations.StoppedClockKeepsTheState : Prop :=
  (∀ s : State, s.inputs = [] → step s = .next s) ∧
  (∀ (s : State) (k : Nat), runOps (List.replicate (k + 1) .idle) s =
    .next { s with regs := { s.regs with valid := false } }) ∧
  (∀ s : State, ∃ k, exec .reset (powerCycle s) =
    .next { s with regs := Regs.atReset s.cfg, draws := k })

/-- 20_memory.md R35, 60_exceptions.md R68: in every state every operation
completes, writing the four registers together and nothing else. -/
def Obligations.OperationsWriteOnlyTheRegisters : Prop :=
  ∀ (i : Instr) (s : State), ∃ r : Regs s.cfg.depth, exec i s = .next { s with regs := r }

/-! ### The three operations -/

/-- 40_operations.md R50, whole: encoding, transfer, and each corner case. -/
def Obligations.ResetWritesTheStartupState : Prop :=
  (∀ c : Ctl, c.getLsbD 2 = true → decode c = .reset) ∧
  (∀ s : State, exec .reset s = .next { s with regs :=
    { win := fill s.cfg.depth s.cfg.init, conf := s.cfg.init, evt := 0b00#2, valid := false } }) ∧
  (∀ (s : State) (d : Bool) (rest : List Pins), s.inputs = pinsOfBits true true d :: rest →
    step s = exec .reset { s with inputs := rest }) ∧
  (∀ s : State, ∃ t, exec .reset s = .next t ∧ t.regs.evt = 0b00#2 ∧
    portRiseP t.regs = false ∧ portFallP t.regs = false) ∧
  (∀ s : State, s.regs = Regs.atReset s.cfg → exec .reset s = .next s) ∧
  (∀ (s : State) (k : Nat), runOps (List.replicate (k + 1) .reset) s = exec .reset s) ∧
  exec .reset { State.reset with regs := { win := 0b11#2, conf := true, evt := 0b01#2, valid := true } } =
    .next { State.reset with regs := { win := 0b00#2, conf := false, evt := 0b00#2, valid := false } }

/-- 10_state.md R21: the reset value of every register, written by `RESET`; with `INIT = 0` all are 0;
the reset state keeps the invariant of R25 and shows no event. -/
def Obligations.ResetValueOfEveryRegister : Prop :=
  (∀ (cfg : Config) (k : Nat), (State.resetOf cfg k).regs =
    { win := fill cfg.depth cfg.init, conf := cfg.init, evt := 0b00#2, valid := false }) ∧
  (∀ (s : State) (k : Nat), exec .reset s = .next { s with regs := (State.resetOf s.cfg k).regs }) ∧
  (∀ (cfg : Config) (k : Nat), cfg.init = false → (State.resetOf cfg k).regs =
    { win := 0#cfg.depth, conf := false, evt := 0b00#2, valid := false }) ∧
  (∀ f ∈ Config.firmware, f.cfg.init = false) ∧
  State.reset.regs = { win := 0b00#2, conf := false, evt := 0b00#2, valid := false } ∧
  (State.resetOf Config.pwrLong 0).regs =
    { win := 0x0000#16, conf := false, evt := 0b00#2, valid := false } ∧
  (∀ (cfg : Config) (k : Nat), WindowAgrees (State.resetOf cfg k).regs ∧
    (State.resetOf cfg k).regs.evt = eventCode .none)

/-- 40_operations.md R51, whole: encoding, transfer, and each corner case. -/
def Obligations.IdleClearsValidOnly : Prop :=
  (∀ c : Ctl, c.getLsbD 2 = false → c.getLsbD 1 = false → decode c = .idle) ∧
  (∀ s : State, exec .idle s = .next { s with regs := { s.regs with valid := false } }) ∧
  (∀ (s : State) (d : Bool) (rest : List Pins), s.inputs = pinsOfBits false false d :: rest →
    step s = exec .idle { s with inputs := rest }) ∧
  (∀ s : State, ∃ t, exec .idle s = .next t ∧ portEdge t.regs = portEdge s.regs ∧
    portRiseP t.regs = false ∧ portFallP t.regs = false) ∧
  (∀ (s : State) (k : Nat), runOps (List.replicate (k + 1) .idle) s =
    .next { s with regs := { s.regs with valid := false } }) ∧
  exec .idle { State.reset with regs := { win := 0b11#2, conf := true, evt := 0b01#2, valid := true } } =
    .next { State.reset with regs := { win := 0b11#2, conf := true, evt := 0b01#2, valid := false } }

/-- 40_operations.md R52, whole: encoding, transfer in every state, each corner case, the example. The
corner case of a window unanimous at the confirmed value is about depths from 2 up (at N = 1 every
window is unanimous, as its first corner case says). -/
def Obligations.SampleFollowsThePseudocode : Prop :=
  (∀ c : Ctl, c.getLsbD 2 = false → c.getLsbD 1 = true → decode c = .sample (c.getLsbD 0)) ∧
  (∀ (d : Bool) (s : State) (w : BitVec s.cfg.depth),
    w = (s.regs.win <<< 1) ||| (BitVec.ofBool d).setWidth s.cfg.depth →
    exec (.sample d) s = .next { s with regs := (
      if w = BitVec.allOnes s.cfg.depth ∧ s.regs.conf = false then
        { win := w, conf := true, evt := 0b01#2, valid := true }
      else if w = 0#s.cfg.depth ∧ s.regs.conf = true then
        { win := w, conf := false, evt := 0b10#2, valid := true }
      else { win := w, conf := s.regs.conf, evt := 0b00#2, valid := true }) }) ∧
  -- N = 1: CONF follows every sample, and every change is an event
  (∀ (d : Bool) (s : State), s.cfg.depth = 1 → ∃ t, exec (.sample d) s = .next t ∧
    t.regs.conf = d ∧ (t.regs.evt ≠ 0b00#2 ↔ d ≠ s.regs.conf)) ∧
  -- the sample equals a confirmed, unanimous window
  (∀ (d : Bool) (s : State), s.regs.win = fill s.cfg.depth d → s.regs.conf = d →
    exec (.sample d) s = .next { s with regs := { s.regs with evt := 0b00#2, valid := true } }) ∧
  -- a window unanimous at the confirmed value, a sample of the other value
  (∀ (d : Bool) (s : State), 2 ≤ s.cfg.depth → s.regs.win = fill s.cfg.depth (!d) →
    s.regs.conf = (!d) → ∃ t, exec (.sample d) s = .next t ∧
      unanimous t.regs.win = false ∧ t.regs.conf = s.regs.conf) ∧
  -- re-completion without an opposite confirmation: the check is against CONF
  (∀ (d : Bool) (s : State), ∃ t, exec (.sample d) s = .next t ∧
    t.regs.evt ≠ eventCode (eventTo s.regs.conf)) ∧
  pollCodes ([true, true, false, true, true].map .sample) State.reset =
    [0b00#2, 0b01#2, 0b00#2, 0b00#2, 0b00#2] ∧
  -- the first N samples after reset; no FALL before a RISE
  (∀ (s : State) (is : List Instr), s.cfg.init = false → ResetFree is →
    (eventCodes (.reset :: is) s).head? ≠ some (eventCode .fall) ∧
    (pollCount is < s.cfg.depth → eventCodes (.reset :: is) s = [])) ∧
  -- RISE and FALL are exclusive
  (∀ n : Nat, 1 ≤ n → ones n ≠ zeros n) ∧
  exec (.sample true)
      { State.reset with regs := { win := 0b01#2, conf := false, evt := 0b00#2, valid := true } } =
    .next { State.reset with regs := { win := 0b11#2, conf := true, evt := 0b01#2, valid := true } }

/-! ### The registers -/

/-- 10_state.md R16: bit 0 of `WIN` is the newest sample, a `SAMPLE` shifts by one, and after any polls
since a `RESET` bit `i` is the sample `i` polls back, the reset fill counting as samples of `INIT`. -/
def Obligations.WindowHoldsTheLastSamples : Prop :=
  (∀ (d : Bool) (s : State), ∃ t, exec (.sample d) s = .next t ∧ t.cfg = s.cfg ∧
    t.regs.win.getLsbD 0 = d ∧
    ∀ i, i + 1 < s.cfg.depth → t.regs.win.getLsbD (i + 1) = s.regs.win.getLsbD i) ∧
  (∀ (s : State) (is : List Instr), ResetFree is → ∃ t, runOps (.reset :: is) s = .next t ∧
    ∀ i, i < s.cfg.depth → t.regs.win.getLsbD i = sampleBack s.cfg.init (samplesOf is) i)

/-- 10_state.md R17: the code of each event, and what each operation writes to `EVT`; `0b11` is written
by none. -/
def Obligations.EventRegisterCodes : Prop :=
  eventCode .none = 0b00#2 ∧ eventCode .rise = 0b01#2 ∧ eventCode .fall = 0b10#2 ∧
  (∀ (d : Bool) (s : State), ∃ t, exec (.sample d) s = .next t ∧
    (t.regs.evt = 0b00#2 ↔ t.regs.conf = s.regs.conf) ∧
    (t.regs.evt = 0b01#2 ↔ s.regs.conf = false ∧ t.regs.conf = true) ∧
    (t.regs.evt = 0b10#2 ↔ s.regs.conf = true ∧ t.regs.conf = false) ∧
    t.regs.evt ≠ 0b11#2) ∧
  (∀ s : State, ∃ t, exec .reset s = .next t ∧ t.regs.evt = 0b00#2) ∧
  (∀ s : State, ∃ t, exec .idle s = .next t ∧ t.regs.evt = s.regs.evt) ∧
  (∀ (s : State) (is : List Instr), ResetFree is → samplesOf is = [] →
    ∃ t, runOps (.reset :: is) s = .next t ∧ t.regs.evt = 0b00#2)

/-- 10_state.md R18: `CONF` changes only on a `SAMPLE` that leaves `WIN` unanimous at the opposite value
or on `RESET`; when a poll leaves the window non-unanimous, `CONF` is kept; and `CONF` is no function of
`WIN` alone. -/
def Obligations.ConfirmedLevelChangesOnlyOnAFullWindow : Prop :=
  (∀ (i : Instr) (s : State), ∃ t, exec i s = .next t ∧
    (t.regs.conf ≠ s.regs.conf →
      i = .reset ∨ ((∃ d, i = .sample d) ∧ t.regs.win = fill t.cfg.depth (!s.regs.conf))) ∧
    ((∃ d, i = .sample d) → unanimous t.regs.win = false → t.regs.conf = s.regs.conf)) ∧
  ∃ (cfg : Config) (w : BitVec cfg.depth), ReachablePair cfg w false ∧ ReachablePair cfg w true

/-- 10_state.md section 5 (R22): what sets and what clears `CONF` and `VALID`, and what writes `EVT`. -/
def Obligations.FlagsAreSetAndClearedAsTabled : Prop :=
  ∀ (i : Instr) (s : State), ∃ t, exec i s = .next t ∧
    (s.regs.conf = false → (t.regs.conf = true ↔
      ((∃ d, i = .sample d) ∧ t.regs.win = ones t.cfg.depth) ∨ (i = .reset ∧ s.cfg.init = true))) ∧
    (s.regs.conf = true → (t.regs.conf = false ↔
      ((∃ d, i = .sample d) ∧ t.regs.win = zeros t.cfg.depth) ∨ (i = .reset ∧ s.cfg.init = false))) ∧
    (i = .idle → t.regs.evt = s.regs.evt) ∧ (i = .reset → t.regs.evt = eventCode .none) ∧
    (t.regs.valid = true ↔ ∃ d, i = .sample d)

/-- 10_state.md R20: `VALID` is 1 exactly after a `SAMPLE`; whatever `VALID` is, `EVT` is the event of
the most recent poll. -/
def Obligations.ValidExactlyAfterASample : Prop :=
  (∀ (i : Instr) (s : State), ∃ t, exec i s = .next t ∧
    (t.regs.valid = true ↔ ∃ d, i = .sample d)) ∧
  (∀ (s : State) (is : List Instr), ResetFree is → ∃ t, runOps is s = .next t ∧
    t.regs.evt = (pollCodes is s).getLastD s.regs.evt)

/-- 10_state.md R26: with a window that is not unanimous, `CONF` may be 0 or 1; and the two runs of the
rule's example leave the same window with different levels (N = 2, INIT = 0). -/
def Obligations.EqualWindowsDifferentLevels : Prop :=
  (∀ (cfg : Config) (w : BitVec cfg.depth), unanimous w = false → ∀ c, ReachablePair cfg w c) ∧
  runOps [.reset, .sample true] State.reset = .next { State.reset with regs :=
    { win := 0b01#2, conf := false, evt := 0b00#2, valid := true } } ∧
  runOps [.reset, .sample true, .sample true, .sample false, .sample true] State.reset =
    .next { State.reset with regs :=
      { win := 0b01#2, conf := true, evt := 0b00#2, valid := true } }

/-- The reset state of every configuration meets the invariant (10_state.md R21, R25). -/
def Obligations.InvariantHoldsAtReset : Prop :=
  State.reset.Inv ∧ ∀ (cfg : Config) (k : Nat), (State.resetOf cfg k).Inv

/-- Every step from a state that meets the invariant, whatever is on the ports, gives one that meets it:
a full window agrees with the level, `EVT` is an event code, and a showing event stands with the
window and level that made it (10_state.md R17, R25). -/
def Obligations.StepKeepsTheInvariant : Prop :=
  ∀ s t : State, s.Inv → step s = .next t → t.Inv

/-- 10_state.md R25. -/
def Obligations.FullWindowAgreesWithTheLevel : Prop :=
  ∀ s : State, Reachable s → unanimous s.regs.win = true → s.regs.conf = s.regs.win.getLsbD 0

/-- 10_state.md R27: `0b11` is met in no state reachable from `RESET`, and where it is met, observing the
outputs of the instance, or the events of a system it is in, is a fault and no event. -/
def Obligations.ReservedEventCodeIsAFault : Prop :=
  (∀ s : State, Reachable s → s.regs.evt ≠ 0b11#2) ∧
  (∀ s : State, s.regs.evt = 0b11#2 →
    outputs s = .error .evtReserved ∧ eventOfCode s.regs.evt = none ∧
    ∀ k is, readings k (.idle :: is) s = .fault .evtReserved) ∧
  (∀ s : State, s.regs.evt ≠ 0b11#2 → ∃ o, outputs s = .ok o) ∧
  (∀ sys : List State, (∃ s ∈ sys, s.regs.evt = 0b11#2) →
    freshEvents sys = .error .evtReserved ∧ ∀ order, ¬ HandlingOrder sys order) ∧
  (∀ sys : List State, (∀ s ∈ sys, s.regs.evt ≠ 0b11#2) → ∃ order, HandlingOrder sys order)

/-- 10_state.md R28: exactly the pairs `(WIN, CONF)` other than `(zeros, 1)` and `(ones, 0)` are reachable
from `RESET`, and there are `2^(N+1) - 2` of them. -/
def Obligations.ReachablePairsExactly : Prop :=
  ∀ cfg : Config,
    (∀ (w : BitVec cfg.depth) (c : Bool), ReachablePair cfg w c ↔
      ¬ (w = zeros cfg.depth ∧ c = true) ∧ ¬ (w = ones cfg.depth ∧ c = false)) ∧
    Set.ncard {p : BitVec cfg.depth × Bool | ReachablePair cfg p.1 p.2} = 2 ^ (cfg.depth + 1) - 2 ∧
    (cfg.depth = 1 → ∀ w c, ReachablePair cfg w c ↔ w = fill cfg.depth c)

/-! ### Ports and parameters -/

/-- 10_state.md R24: the outputs are a function of the registers (and of the build) only; no input level
and no scheduled drive reaches them. -/
def Obligations.OutputsDependOnRegistersOnly : Prop :=
  ∀ (cfg : Config) (r : Regs cfg.depth) (ins ins' : List Pins) (k k' : Draws),
    outputs { cfg := cfg, regs := r, inputs := ins, draws := k } =
      outputs { cfg := cfg, regs := r, inputs := ins', draws := k' }

/-- 10_state.md section 3 (R19): each output port as its formula over the registers. -/
def Obligations.PortsFollowTheirFormulas : Prop :=
  ∀ s : State, s.regs.evt ≠ 0b11#2 → ∃ o, outputs s = .ok o ∧
    o.level = s.regs.conf ∧ eventCode o.edge = s.regs.evt ∧ o.valid = s.regs.valid ∧
    (o.riseP = true ↔ s.regs.valid = true ∧ s.regs.evt = 0b01#2) ∧
    (o.fallP = true ↔ s.regs.valid = true ∧ s.regs.evt = 0b10#2) ∧
    (s.cfg.exposeWin = true → o.win = some s.regs.win) ∧
    (s.cfg.exposeWin = false → o.win = none)

/-- 00_scope.md R6: `EXPOSE_WIN` is 1 by default, shows `win` when it is 1, and changes no other output
and no state. -/
def Obligations.ExposeWinChangesNothingElse : Prop :=
  (∀ n h, ({ depth := n, depth_pos := h } : Config).exposeWin = true) ∧
  (∀ (b : Bool) (s : State), portWin (withExposeWin b s) = if b then some s.regs.win else none) ∧
  (∀ (b : Bool) (s : State) (o : Outputs s.cfg.depth), outputs s = .ok o →
    outputs (withExposeWin b s) = .ok { o with win := portWin (withExposeWin b s) }) ∧
  (∀ (b : Bool) (i : Instr) (s t : State), exec i s = .next t →
    exec i (withExposeWin b s) = .next (withExposeWin b t))

/-- 70_reset_and_hazards.md R81: the outputs from the reset edge onward, held until the next operation (no
edge, no change: 60_exceptions.md R79). -/
def Obligations.OutputsAfterReset : Prop :=
  ∀ s : State,
    exec .reset s = .next { s with regs := Regs.atReset s.cfg } ∧
    outputs { s with regs := Regs.atReset s.cfg } =
      .ok { level := s.cfg.init, edge := .none, valid := false, riseP := false, fallP := false,
            win := if s.cfg.exposeWin then some (fill s.cfg.depth s.cfg.init) else none } ∧
    (s.inputs = [] → step { s with regs := Regs.atReset s.cfg } =
      .next { s with regs := Regs.atReset s.cfg })

/-- 00_scope.md R4 and 70_reset_and_hazards.md R88: `N >= 1`, `N = 0` refused at configuration, the
source's two depths, and no operation or edge that changes a parameter. -/
def Obligations.ConfigurationIsStatic : Prop :=
  (∀ i e, configure 0 i e = .error .depthZero) ∧
  (∀ n i e, 1 ≤ n → ∃ c, configure n i e = .ok c ∧ c.depth = n ∧ c.init = i ∧ c.exposeWin = e) ∧
  (∀ c : Config, 1 ≤ c.depth) ∧ Config.nShort = 2 ∧ Config.nLong = 16 ∧
  (∀ (i : Instr) (s : State), ∃ t, exec i s = .next t ∧ t.cfg = s.cfg) ∧
  (∀ s : State, ∃ t, step s = .next t ∧ t.cfg = s.cfg)

/-- 00_scope.md R7: the instance table, and its pair; and `INIT = 0` by default (R5). -/
def Obligations.FirmwareInstanceTable : Prop :=
  Config.firmware.map (fun f => (f.name, f.input, f.cfg.depth, f.cfg.init, f.uses)) =
    [(.pwrShort, .powerButton, 2, false, [.rise, .fall]), (.pwrLong, .powerButton, 16, false, [.rise]),
     (.rstLong, .resetButton, 16, false, [.rise])] ∧
  (∀ n h, ({ depth := n, depth_pos := h } : Config).init = false) ∧
  Pair.firmware.matched ∧
  Pair.firmware.short.cfg = Config.pwrShort ∧ Pair.firmware.long.cfg = Config.pwrLong

/-- 60_exceptions.md R67: the model's three outcomes that are no states of the hardware, and that each
run from power-up that begins with `RESET` is a run from the reset state. -/
def Obligations.ThreeModelOutcomes : Prop :=
  (∀ i e, configure 0 i e = .error .depthZero) ∧
  (∀ cfg k d is, runFromPowerUp cfg k (.sample d :: is) = .refused .runBeforeReset) ∧
  (∀ cfg k is, runFromPowerUp cfg k (.idle :: is) = .refused .runBeforeReset) ∧
  (∀ cfg k is, runFromPowerUp cfg k (.reset :: is) =
    runOps is { powerUp cfg k with regs := Regs.atReset cfg }) ∧
  (∀ s : State, s.regs.evt = 0b11#2 → outputs s = .error .evtReserved) ∧
  (∀ sys : List State, (∃ s ∈ sys, s.regs.evt = 0b11#2) → freshEvents sys = .error .evtReserved)

/-! ### Laws of the family -/

/-- 40_operations.md R55: one report a `SAMPLE`, an event if and only if `CONF` changes; `RESET` and
`IDLE` produce none. -/
def Obligations.EventExactlyWhenTheLevelChanges : Prop :=
  (∀ (d : Bool) (s : State), ∃ t, exec (.sample d) s = .next t ∧
    pollCodes [.sample d] s = [t.regs.evt] ∧
    (t.regs.evt ≠ eventCode .none ↔ t.regs.conf ≠ s.regs.conf) ∧
    ¬ (t.regs.evt = eventCode .rise ∧ t.regs.evt = eventCode .fall)) ∧
  (∀ s : State, ∃ t, exec .reset s = .next t ∧ t.regs.evt = eventCode .none) ∧
  (∀ s : State, ∃ t, exec .idle s = .next t ∧ portRiseP t.regs = false ∧ portFallP t.regs = false) ∧
  (∀ (s : State) (is : List Instr), samplesOf is = [] → eventCodes is s = [])

/-- 40_operations.md R54: the closed form of `CONF` and `EVT` after each poll since a `RESET`, with any
`IDLE` operations between. -/
def Obligations.ClosedFormOfTheLevel : Prop :=
  ∀ (s : State),
    (∃ z, exec .reset s = .next z ∧ z.regs.conf = s.cfg.init) ∧
    ∀ (is : List Instr) (d : Bool), ResetFree is →
      ∃ u t : State, runOps (.reset :: is) s = .next u ∧ exec (.sample d) u = .next t ∧
        ((∀ i, i < s.cfg.depth → sampleBack s.cfg.init (samplesOf is ++ [d]) i = d) →
          t.regs.conf = d) ∧
        (¬ (∀ i, i < s.cfg.depth → sampleBack s.cfg.init (samplesOf is ++ [d]) i = d) →
          t.regs.conf = u.regs.conf) ∧
        t.regs.evt =
          (if u.regs.conf = false ∧ t.regs.conf = true then eventCode .rise
           else if u.regs.conf = true ∧ t.regs.conf = false then eventCode .fall
           else eventCode .none)

/-- 40_operations.md R54 and R51: taking the `IDLE` operations out of a run changes neither the events of
its polls nor what it leaves in `WIN`, `CONF` and `EVT`. -/
def Obligations.IdlesChangeNoEvent : Prop :=
  ∀ (is : List Instr) (s : State),
    pollCodes (is.filter (fun i => i != .idle)) s = pollCodes is s ∧
    ∃ (t : State) (v : Bool), runOps (is.filter (fun i => i != .idle)) s = .next t ∧
      runOps is s = .next { t with regs := { t.regs with valid := v } }

/-- 40_operations.md R56: with no `RESET` between, events alternate from every state; after a `RESET` the
first event is `RISE` if `INIT = 0` and `FALL` if `INIT = 1`. -/
def Obligations.EventsAlternate : Prop :=
  ∀ (s : State) (is : List Instr), ResetFree is →
    (eventCodes is s).IsChain (fun a b => a ≠ b) ∧
    (∀ e ∈ eventCodes is s, e = eventCode .rise ∨ e = eventCode .fall) ∧
    (∀ e, (eventCodes (.reset :: is) s).head? = some e →
      e = if s.cfg.init then eventCode .fall else eventCode .rise)

/-- 40_operations.md R57: idempotence, and the weaker premise `CONF = v` alone. -/
def Obligations.ConfirmedSamplesChangeNothing : Prop :=
  ∀ (s : State) (v : Bool), s.regs.conf = v →
    (s.regs.win = fill s.cfg.depth v → ∀ k,
      runOps (List.replicate (k + 1) (.sample v)) s =
        .next { s with regs := { s.regs with evt := eventCode .none, valid := true } }) ∧
    (∀ k, eventCodes (List.replicate k (.sample v)) s = [])

/-- 40_operations.md R58: after an event to d the window is full of d; fewer than N further polls bring no
event, whatever stands between them (a `RESET` too); and the next event, if no `RESET` came, is to not
d. -/
def Obligations.EventsAreAtLeastNPollsApart : Prop :=
  ∀ (s : State) (d : Bool), ∃ t, exec (.sample d) s = .next t ∧
    (t.regs.evt ≠ eventCode .none →
      t.regs.win = fill t.cfg.depth d ∧ t.regs.conf = d ∧
      (∀ is : List Instr, pollCount is < s.cfg.depth → eventCodes is t = []) ∧
      ∀ (is : List Instr) (e : EvtCode), ResetFree is → (eventCodes is t).head? = some e →
        e = eventCode (eventTo (!d)))

/-- 40_operations.md R59: a run of exactly m samples of v, after a sample of not v and with not v
confirmed, reports the event to v at its N-th sample and nothing else; with m < N it reports nothing.
`RESET` with `INIT = not v` is such a start. -/
def Obligations.RunIsConfirmedAtItsNthSample : Prop :=
  (∀ (s : State) (v : Bool) (is : List Instr) (m : Nat),
    s.regs.conf = (!v) → s.regs.win.getLsbD 0 = (!v) → ResetFree is →
    samplesOf is = List.replicate m v → pollCodes is s = runReports s.cfg.depth m v) ∧
  (∀ (s : State) (is : List Instr) (m : Nat), ResetFree is →
    samplesOf is = List.replicate m (!s.cfg.init) →
    pollCodes (.reset :: is) s = runReports s.cfg.depth m (!s.cfg.init))

/-- 70_reset_and_hazards.md R91: whatever the state, N further samples of v (with any `IDLE` between) and
no `RESET` leave v confirmed and the window full of it. -/
def Obligations.NSamplesConfirmTheirLevel : Prop :=
  ∀ (s : State) (v : Bool) (m : Nat) (xs : List Bool) (is : List Instr), ResetFree is →
    samplesOf is = xs ++ List.replicate m v → s.cfg.depth ≤ m →
    ∃ t, runOps is s = .next t ∧ t.regs.conf = v ∧ t.regs.win = fill t.cfg.depth v

/-- 70_reset_and_hazards.md R85: an input steadily at not INIT from the start reports the event to it at
the N-th `SAMPLE` and only there; for the firmware's instances that is `RISE` at poll 2, 16 and 16. -/
def Obligations.StartupLevelIsConfirmedAtPollN : Prop :=
  (∀ (s : State) (m : Nat),
    pollCodes (.reset :: List.replicate m (.sample (!s.cfg.init))) s =
      runReports s.cfg.depth m (!s.cfg.init)) ∧
  pollCodes (.reset :: List.replicate 2 (.sample true)) (State.resetOf Config.pwrShort 0) =
    List.replicate 1 0b00#2 ++ [0b01#2] ∧
  pollCodes (.reset :: List.replicate 16 (.sample true)) (State.resetOf Config.pwrLong 0) =
    List.replicate 15 0b00#2 ++ [0b01#2] ∧
  pollCodes (.reset :: List.replicate 16 (.sample true)) (State.resetOf Config.rstLong 0) =
    List.replicate 15 0b00#2 ++ [0b01#2]

/-- The step lemma behind the next statement (40_operations.md R53, log entry 12): `RESET` brings the block
and the counter circuit into agreement, whatever the block held, and every operation done by both keeps
the agreement. -/
def Obligations.CounterAgreementIsKept : Prop :=
  (∀ (s : State) (q : RunRegs), ∃ t, exec .reset s = .next t ∧
    CounterAgrees t.regs (runExec s.cfg .reset q)) ∧
  (∀ (i : Instr) (s t : State) (q : RunRegs), CounterAgrees s.regs q → exec i s = .next t →
    CounterAgrees t.regs (runExec s.cfg i q))

/-- 40_operations.md R53, for the one other circuit the model holds (log entry 12): a run-length counter
shows the same on `level`, `edge`, `valid` and the pulses after every run from `RESET`, whatever both
circuits held before. It has no `win` port (`EXPOSE_WIN = 0`). -/
def Obligations.RunLengthCounterShowsTheSame : Prop :=
  ∀ (s : State) (q : RunRegs) (is : List Instr),
    ∃ t, runOps (.reset :: is) s = .next t ∧ SamePorts t.regs (runExecs s.cfg (.reset :: is) q)

/-! ### Observation -/

/-- 60_exceptions.md section 3 (R70): reading the outputs after every edge, the pulses of `rise_p` and
`fall_p` show each event exactly once, and `level`, `edge` and `valid` show after every edge what `CONF`,
`EVT` and `VALID` hold. -/
def Obligations.PulsesShowEachEventOnce : Prop :=
  ∀ (k : Nat) (is : List Instr) (s : State), s.regs.evt ≠ 0b11#2 →
    ∃ rs, readings k is s = .next rs ∧ rs.length = is.length ∧
      rs.countP (fun x => x.riseP) = (pollCodes is s).count (eventCode .rise) ∧
      rs.countP (fun x => x.fallP) = (pollCodes is s).count (eventCode .fall) ∧
      ∀ j, j < is.length → ∃ x t, rs[j]? = some x ∧ runOps (is.take (j + 1)) s = .next t ∧
        x.level = t.regs.conf ∧ eventCode x.edge = t.regs.evt ∧ x.valid = t.regs.valid

/-- 70_reset_and_hazards.md section 3 (R86): the poll number a reading records is that of the poll whose
event the reading shows, and 0 with no event before the first poll since `RESET`. The numbering is log
entry 11. -/
def Obligations.ReadingRecordsItsPoll : Prop :=
  ∀ (s : State) (is : List Instr), ResetFree is →
    ∃ rs, readings 0 (.reset :: is) s = .next rs ∧
      ∀ x ∈ rs, (x.poll = 0 → x.edge = .none) ∧
        (∀ j, x.poll = j + 1 → (pollCodes is { s with regs := Regs.atReset s.cfg })[j]? =
          some (eventCode x.edge))

/-! ### Several instances -/

/-- 40_operations.md R60 and R61: two instances of different depth and equal `INIT`, driven together from
a common `RESET`, never both report an event at one poll, whatever they held before. -/
def Obligations.PairNeverReportsTwoEvents : Prop :=
  ∀ (p : Pair) (is : List Instr), p.matched →
    ∀ c ∈ pairPollCodes (.reset :: is) p, c.1 = eventCode .none ∨ c.2 = eventCode .none

/-- 40_operations.md section 6 (R60) and 20_memory.md R39: two instances with the same levels on their
ports perform the same operation at the same edge, each on its own state. -/
def Obligations.SameDriveIsOneOperationOnBoth : Prop :=
  ∀ (p : Pair) (r e d : Bool) (restS restL : List Pins),
    p.short.inputs = pinsOfBits r e d :: restS → p.long.inputs = pinsOfBits r e d :: restL →
    ∃ q : Pair,
      execPair (decode (ctlOfBits r e d))
        { short := { p.short with inputs := restS }, long := { p.long with inputs := restL } } =
        .next q ∧
      exec (decode (ctlOfBits r e d)) { p.short with inputs := restS } = .next q.short ∧
      exec (decode (ctlOfBits r e d)) { p.long with inputs := restL } = .next q.long ∧
      stepSystem [p.short, p.long] = .next [q.short, q.long]

/-- The invariant behind R61: a common `RESET` establishes it, every edge of the pair keeps it. -/
def Obligations.PairKeepsItsInvariant : Prop :=
  (∀ p : Pair, p.matched → ∃ q, execPair .reset p = .next q ∧ q.Inv) ∧
  (∀ (i : Instr) (p q : Pair), p.Inv → execPair i p = .next q → q.Inv)

/-- 40_operations.md section 6 (R62): after a hold of at least N_L polls of a value both levels show it;
two instances of one configuration driven together hold the same registers at every edge. -/
def Obligations.PairLevelsAfterAHold : Prop :=
  (∀ (p : Pair) (v : Bool) (m : Nat), p.matched → p.long.cfg.depth ≤ m →
    ∃ q, runPair (.reset :: List.replicate m (.sample v)) p = .next q ∧
      q.short.regs.conf = v ∧ q.long.regs.conf = v) ∧
  (∀ (cfg : Config) (r r' : Regs cfg.depth) (ins : List Pins) (k : Draws) (is : List Instr),
    ∃ t : State, runOps (.reset :: is) { cfg := cfg, regs := r, inputs := ins, draws := k } = .next t ∧
      runOps (.reset :: is) { cfg := cfg, regs := r', inputs := ins, draws := k } = .next t)

/-- 40_operations.md R63: a run of exactly m samples of v, both instances having not v confirmed and
sampled last, is seen by neither (m < N_S), by S only (a tap) or by both, each at its own N-th sample (a
hold); for the firmware's pair a tap is 2 to 15 polls and a hold 16 or more. -/
def Obligations.TapAndHoldAreTold : Prop :=
  (∀ (p : Pair) (v : Bool) (is : List Instr) (m : Nat), p.matched →
    p.short.regs.conf = (!v) → p.long.regs.conf = (!v) →
    p.short.regs.win.getLsbD 0 = (!v) → p.long.regs.win.getLsbD 0 = (!v) →
    ResetFree is → samplesOf is = List.replicate m v →
    (pairPollCodes is p).map Prod.fst = runReports p.short.cfg.depth m v ∧
    (pairPollCodes is p).map Prod.snd = runReports p.long.cfg.depth m v) ∧
  (∀ (n m : Nat) (v : Bool), 1 ≤ n →
    (eventCode (eventTo v) ∈ runReports n m v ↔ n ≤ m) ∧
    (n ≤ m → (runReports n m v)[n - 1]? = some (eventCode (eventTo v)) ∧
      (runReports n m v).count (eventCode (eventTo v)) = 1)) ∧
  (∀ m : Nat, (eventCode .rise ∈ runReports Pair.firmware.short.cfg.depth m true ∧
    eventCode .rise ∉ runReports Pair.firmware.long.cfg.depth m true) ↔ 2 ≤ m ∧ m ≤ 15) ∧
  (∀ m : Nat, (eventCode .rise ∈ runReports Pair.firmware.short.cfg.depth m true ∧
    eventCode .rise ∈ runReports Pair.firmware.long.cfg.depth m true) ↔ 16 ≤ m)

/-- 40_operations.md R65 (the part about `en` and `rst`): when the two instances are not driven together,
both can report an event at one edge. Each pair of programs below has one operation an edge, and the
last edge of both reports `RISE`. -/
def Obligations.SeparateDriveCanCoincide : Prop :=
  (pollCodes (.reset :: List.replicate 14 .idle ++ [.sample true, .sample true])
      (State.resetOf Config.pwrShort 0)).getLast? = some (eventCode .rise) ∧
  (pollCodes (List.replicate 15 .reset ++ [.sample true, .sample true])
      (State.resetOf Config.pwrShort 0)).getLast? = some (eventCode .rise) ∧
  (pollCodes (.reset :: List.replicate 16 (.sample true))
      (State.resetOf Config.pwrLong 1)).getLast? = some (eventCode .rise) ∧
  (Instr.reset :: List.replicate 14 Instr.idle ++ [Instr.sample true, .sample true]).length =
    (Instr.reset :: List.replicate 16 (Instr.sample true)).length ∧
  (List.replicate 15 Instr.reset ++ [Instr.sample true, .sample true]).length =
    (Instr.reset :: List.replicate 16 (Instr.sample true)).length

/-- 60_exceptions.md section 8 (R77) and 20_memory.md R39: an edge of a system is an edge of each of its
instances on its own, and it always completes. -/
def Obligations.InstancesStepIndependently : Prop :=
  (∀ sys : List State, ∃ sys', stepSystem sys = .next sys') ∧
  (∀ sys sys' : List State, stepSystem sys = .next sys' ↔
    List.Forall₂ (fun s t => step s = .next t) sys sys')

/-- 60_exceptions.md section 4 (R73): PWR_LONG and RST_LONG may report at the same edge, and the consumer
may handle the two events in either order. The last clause, that an order which drops one of them is no
handling order, is the model's own (log entry 14). -/
def Obligations.SameEdgeEventsInAnyOrder : Prop :=
  ∃ a b : State,
    runOps (.reset :: List.replicate 16 (.sample true)) (State.resetOf Config.pwrLong 1) = .next a ∧
    runOps (.reset :: List.replicate 16 (.sample true)) (State.resetOf Config.rstLong 2) = .next b ∧
    HandlingOrder [a, b] [(0, .rise), (1, .rise)] ∧
    HandlingOrder [a, b] [(1, .rise), (0, .rise)] ∧
    ¬ HandlingOrder [a, b] [(0, .rise)]
end

