-- ==== Sys2Proof/Laws/Bits.lean ====
section
/-! SUPPORT. The bit-vector primitives, bit by bit. -/
namespace Sys2Proof.Machine

@[simp] theorem fill_bit {n : Nat} (b : Bool) (i : Nat) :
    (fill n b).getLsbD i = (decide (i < n) && b) := by
  cases b <;> simp [fill, ones, zeros]

@[simp] theorem fill_getElem {n : Nat} (b : Bool) (i : Nat) (h : i < n) : (fill n b)[i] = b := by
  rw [← BitVec.getLsbD_eq_getElem, fill_bit]
  simp [h]

theorem ones_eq_fill (n : Nat) : ones n = fill n true := rfl
theorem zeros_eq_fill (n : Nat) : zeros n = fill n false := rfl

/-- Bit 0 after a shift is the new sample, the others move up by one (10_state.md R16). -/
theorem shiftIn_bit {n : Nat} (w : BitVec n) (d : Bool) (i : Nat) (h : i < n) :
    (shiftIn w d).getLsbD i = if i = 0 then d else w.getLsbD (i - 1) := by
  rcases i with _ | i
  · simp [shiftIn, zext, h]
  · rw [BitVec.getLsbD_eq_getElem h]
    simp [shiftIn, zext]
    rw [BitVec.getLsbD_eq_getElem]

@[simp] theorem shiftIn_newest {n : Nat} (w : BitVec n) (d : Bool) (h : 1 ≤ n) :
    (shiftIn w d).getLsbD 0 = d := by
  simp [shiftIn_bit w d 0 h]

/-- A window is full of `b` when each of its bits is. -/
theorem eq_fill_iff {n : Nat} (w : BitVec n) (b : Bool) :
    w = fill n b ↔ ∀ i, i < n → w.getLsbD i = b := by
  constructor
  · rintro rfl i h
    simp [h]
  · intro h
    apply BitVec.eq_of_getLsbD_eq
    intro i hi
    rw [h i hi]
    simp [hi]

/-- A shifted window is full of `b` when the new sample is `b` and all but the oldest bit were. -/
theorem shiftIn_eq_fill_iff {n : Nat} (w : BitVec n) (d b : Bool) (hn : 1 ≤ n) :
    shiftIn w d = fill n b ↔ d = b ∧ ∀ i, i + 1 < n → w.getLsbD i = b := by
  rw [eq_fill_iff]
  constructor
  · intro h
    refine ⟨by simpa [hn] using h 0 hn, fun i hi => ?_⟩
    simpa [shiftIn_bit w d (i + 1) hi] using h (i + 1) hi
  · rintro ⟨rfl, h⟩ i hi
    rw [shiftIn_bit w d i hi]
    split
    · rfl
    · exact h (i - 1) (by omega)

/-- Shifting the value a window is full of changes nothing (91_not_in_source.md N12). -/
theorem shiftIn_fill {n : Nat} (b : Bool) (hn : 1 ≤ n) : shiftIn (fill n b) b = fill n b := by
  rw [shiftIn_eq_fill_iff _ _ _ hn]
  exact ⟨rfl, fun i hi => by simp [show i < n by omega]⟩

/-- For N >= 1 no window is full of both values (40_operations.md R52). -/
theorem fill_inj {n : Nat} (hn : 1 ≤ n) (a b : Bool) : fill n a = fill n b ↔ a = b := by
  constructor
  · intro h
    have := congrArg (fun w => w.getLsbD 0) h
    simpa [show 0 < n from hn] using this
  · rintro rfl
    rfl

theorem ones_ne_zeros {n : Nat} (hn : 1 ≤ n) : ones n ≠ zeros n := by
  rw [ones_eq_fill, zeros_eq_fill]
  simp [fill_inj hn]

/-- A window is unanimous when it is full of its newest bit (00_scope.md R9). -/
theorem unanimous_iff {n : Nat} (w : BitVec n) (hn : 1 ≤ n) :
    unanimous w = true ↔ w = fill n (w.getLsbD 0) := by
  simp only [unanimous, Bool.or_eq_true, beq_iff_eq, zeros_eq_fill, ones_eq_fill]
  constructor
  · rintro (h | h) <;> (rw [h]; simp [show 0 < n from hn])
  · intro h
    cases hb : w.getLsbD 0 <;> rw [hb] at h
    · exact Or.inl h
    · exact Or.inr h

theorem unanimous_fill {n : Nat} (b : Bool) : unanimous (fill n b) = true := by
  cases b <;> simp [unanimous, fill]

/-- The newest part of a shifted window is the shifted newest part (40_operations.md R60: both windows
of a pair take the same sample). -/
theorem setWidth_shiftIn {n m : Nat} (w : BitVec m) (d : Bool) (h : n ≤ m) :
    (shiftIn w d).setWidth n = shiftIn (w.setWidth n) d := by
  apply BitVec.eq_of_getLsbD_eq
  intro i hi
  rw [BitVec.getLsbD_setWidth, shiftIn_bit _ _ _ (by omega), shiftIn_bit _ _ _ hi]
  simp [hi, show i - 1 < n by omega]

theorem setWidth_fill {n m : Nat} (b : Bool) (h : n ≤ m) : (fill m b).setWidth n = fill n b := by
  apply BitVec.eq_of_getLsbD_eq
  intro i hi
  rw [BitVec.getLsbD_setWidth]
  simp [hi, show i < m by omega]

end Sys2Proof.Machine
end

