-- ==== Sys2Proof/Laws/State.lean ====
section
/-! SUPPORT. One lemma per field per update of `State`, and the small facts about the reset state. -/
namespace Sys2Proof.Machine

@[simp] theorem writeRegs_cfg (s : State) (r : Regs s.cfg.depth) : (writeRegs s r).cfg = s.cfg := rfl
@[simp] theorem writeRegs_regs (s : State) (r : Regs s.cfg.depth) : (writeRegs s r).regs = r := rfl
@[simp] theorem writeRegs_inputs (s : State) (r : Regs s.cfg.depth) :
    (writeRegs s r).inputs = s.inputs := rfl
@[simp] theorem writeRegs_draws (s : State) (r : Regs s.cfg.depth) :
    (writeRegs s r).draws = s.draws := rfl
@[simp] theorem writeRegs_writeRegs (s : State) (r q : Regs s.cfg.depth) :
    writeRegs (writeRegs s r) q = writeRegs s q := rfl
@[simp] theorem writeRegs_self (s : State) : writeRegs s s.regs = s := rfl

@[simp] theorem presentNext_cfg (s : State) (p : Pins) : (presentNext s p).cfg = s.cfg := rfl
@[simp] theorem presentNext_regs (s : State) (p : Pins) : (presentNext s p).regs = s.regs := rfl
@[simp] theorem presentNext_inputs (s : State) (p : Pins) :
    (presentNext s p).inputs = p :: s.inputs.tail := rfl
@[simp] theorem presentNext_draws (s : State) (p : Pins) : (presentNext s p).draws = s.draws := rfl

@[simp] theorem stopClock_cfg (s : State) : (stopClock s).cfg = s.cfg := rfl
@[simp] theorem stopClock_regs (s : State) : (stopClock s).regs = s.regs := rfl
@[simp] theorem stopClock_inputs (s : State) : (stopClock s).inputs = [] := rfl
@[simp] theorem stopClock_draws (s : State) : (stopClock s).draws = s.draws := rfl

@[simp] theorem resetOf_cfg (cfg : Config) (k : Nat) : (State.resetOf cfg k).cfg = cfg := rfl
@[simp] theorem resetOf_regs (cfg : Config) (k : Nat) :
    (State.resetOf cfg k).regs = Regs.atReset cfg := rfl
@[simp] theorem resetOf_inputs (cfg : Config) (k : Nat) : (State.resetOf cfg k).inputs = [] := rfl

/-- What `RESET` writes is the reset value of every register (10_state.md R21). -/
theorem regsReset_eq_atReset (cfg : Config) : regsReset cfg = Regs.atReset cfg := rfl

end Sys2Proof.Machine
end

