-- ==== Sys2Proof/Laws/Exec.lean ====
section
/-! SUPPORT. What an operation, a run and a step can do, said once; later proofs cite these and do not
unfold `exec`, `runOps`, `pollCodes` or `step` again. -/
namespace Sys2Proof.Machine

/-- The register transfer of each operation. -/
def opRegs (cfg : Config) (i : Instr) (r : Regs cfg.depth) : Regs cfg.depth :=
  match i with
  | .reset => regsReset cfg
  | .sample d => regsSample d r
  | .idle => regsIdle r

/-- The register transfers of a list of operations. -/
def runRegs (cfg : Config) : List Instr → Regs cfg.depth → Regs cfg.depth
  | [], r => r
  | i :: is, r => runRegs cfg is (opRegs cfg i r)

/-- The codes of a run's polls, on the registers alone. -/
def regCodes (cfg : Config) : List Instr → Regs cfg.depth → List EvtCode
  | [], _ => []
  | i :: is, r =>
    if isPoll i then (opRegs cfg i r).evt :: regCodes cfg is (opRegs cfg i r)
    else regCodes cfg is (opRegs cfg i r)

/-- Every operation completes, and writes the registers only. -/
theorem exec_eq (i : Instr) (s : State) : exec i s = .next (writeRegs s (opRegs s.cfg i s.regs)) := by
  cases i <;> rfl

@[simp] theorem opRegs_reset (cfg : Config) (r : Regs cfg.depth) :
    opRegs cfg .reset r = regsReset cfg := rfl
@[simp] theorem opRegs_sample (cfg : Config) (d : Bool) (r : Regs cfg.depth) :
    opRegs cfg (.sample d) r = regsSample d r := rfl
@[simp] theorem opRegs_idle (cfg : Config) (r : Regs cfg.depth) :
    opRegs cfg .idle r = regsIdle r := rfl

/-- A run completes, and leaves what the register transfers leave. -/
theorem runOps_eq (is : List Instr) (s : State) :
    runOps is s = .next (writeRegs s (runRegs s.cfg is s.regs)) := by
  induction is generalizing s with
  | nil => rfl
  | cons i is ih =>
    simp only [runOps, exec_eq]
    rw [ih]
    rfl

theorem pollCodes_eq (is : List Instr) (s : State) :
    pollCodes is s = regCodes s.cfg is s.regs := by
  induction is generalizing s with
  | nil => rfl
  | cons i is ih =>
    simp only [pollCodes, regCodes, exec_eq]
    rw [ih]
    rfl

theorem runRegs_append (cfg : Config) (a b : List Instr) (r : Regs cfg.depth) :
    runRegs cfg (a ++ b) r = runRegs cfg b (runRegs cfg a r) := by
  induction a generalizing r with
  | nil => rfl
  | cons i is ih => exact ih _

theorem regCodes_append (cfg : Config) (a b : List Instr) (r : Regs cfg.depth) :
    regCodes cfg (a ++ b) r = regCodes cfg a r ++ regCodes cfg b (runRegs cfg a r) := by
  induction a generalizing r with
  | nil => rfl
  | cons i is ih =>
    simp only [List.cons_append, regCodes, runRegs, ih]
    split <;> rfl

/-- What a step can do: with no edge scheduled it keeps the state; else it performs the operation of the
sampled vector on the state past that edge's entry. -/
theorem step_eq (s : State) :
    step s = match s.inputs with
      | [] => .next s
      | p :: rest => exec (decode (samplePins p s.draws).1)
          { s with inputs := rest, draws := (samplePins p s.draws).2 } := by
  unfold step fetchEdge
  cases s.inputs <;> rfl

/-- A step that answers a next state leaves the registers or performs one operation on them. -/
theorem step_cases {s t : State} (h : step s = .next t) :
    t = s ∨ ∃ (i : Instr) (ins : List Pins) (k : Draws),
      t = { s with regs := opRegs s.cfg i s.regs, inputs := ins, draws := k } := by
  rw [step_eq] at h
  split at h
  · exact Or.inl (Host.Outcome.next.inj h).symm
  · rw [exec_eq] at h
    exact Or.inr ⟨_, _, _, (Host.Outcome.next.inj h).symm⟩

/-- A valid level is sampled as it is driven, and no free value is used. -/
@[simp] theorem sampleLevel_levelOfBit (b : Bool) (k : Draws) :
    sampleLevel (levelOfBit b) k = (b, k) := by
  cases b <;> rfl

@[simp] theorem sampleLevel_low (k : Draws) : sampleLevel .low k = (false, k) := rfl
@[simp] theorem sampleLevel_high (k : Draws) : sampleLevel .high k = (true, k) := rfl

/-- An unsettled level is a free bit, and uses one free value (70_reset_and_hazards.md R84). -/
@[simp] theorem sampleLevel_unsettled (k : Draws) :
    sampleLevel .unsettled k =
      (Config.freeLevel k.stream k.index, { k with index := k.index + 1 }) := rfl

/-- Valid levels are sampled as they are, and no free value is used. -/
theorem samplePins_pinsOfBits (r e d : Bool) (k : Draws) :
    samplePins (pinsOfBits r e d) k = (ctlOfBits r e d, k) := by
  cases r <;> cases e <;> cases d <;> rfl

theorem ctlOfBits_bits (c : Ctl) : ctlOfBits (c.getLsbD 2) (c.getLsbD 1) (c.getLsbD 0) = c := by
  revert c
  decide

/-- A step with valid levels on the ports. -/
theorem step_pinsOfBits (s : State) (r e d : Bool) (rest : List Pins)
    (h : s.inputs = pinsOfBits r e d :: rest) :
    step s = exec (decode (ctlOfBits r e d)) { s with inputs := rest } := by
  rw [step_eq, h]
  simp only [samplePins_pinsOfBits]

/-- A step with a control vector on the ports. -/
theorem step_pinsOfCtl (s : State) (c : Ctl) (rest : List Pins) (h : s.inputs = pinsOfCtl c :: rest) :
    step s = exec (decode c) { s with inputs := rest } := by
  rw [step_pinsOfBits s _ _ _ rest h, ctlOfBits_bits]

/-- One edge of a pair completes on both instances. -/
theorem execPair_eq (i : Instr) (p : Pair) :
    execPair i p = .next
      { short := writeRegs p.short (opRegs p.short.cfg i p.short.regs)
        long := writeRegs p.long (opRegs p.long.cfg i p.long.regs) } := by
  simp only [execPair, exec_eq, pairOutcome]

theorem runPair_eq (is : List Instr) (p : Pair) :
    runPair is p = .next
      { short := writeRegs p.short (runRegs p.short.cfg is p.short.regs)
        long := writeRegs p.long (runRegs p.long.cfg is p.long.regs) } := by
  induction is generalizing p with
  | nil => rfl
  | cons i is ih =>
    simp only [runPair, execPair_eq]
    rw [ih]
    rfl

theorem pairPollCodes_eq (is : List Instr) (p : Pair) :
    pairPollCodes is p =
      (regCodes p.short.cfg is p.short.regs).zip (regCodes p.long.cfg is p.long.regs) := by
  induction is generalizing p with
  | nil => rfl
  | cons i is ih =>
    simp only [pairPollCodes, execPair_eq, regCodes]
    rw [ih]
    split <;> rfl

theorem regCodes_length (cfg : Config) (is : List Instr) (r : Regs cfg.depth) :
    (regCodes cfg is r).length = pollCount is := by
  induction is generalizing r with
  | nil => rfl
  | cons i is ih =>
    cases i <;> simp [regCodes, isPoll, ih, pollCount, List.countP_cons]

end Sys2Proof.Machine
end

