-- ==== Sys2Proof/Laws/Core.lean ====
section
/-! SUPPORT. Runs of the host's machine, one step at a time. -/
namespace Sys2Proof.Machine

theorem core_run_zero (s : State) : Host.Core.run Sys2Proof.core 0 s = .next s := rfl

/-- A run goes on from the state its first step answers. -/
theorem core_run_next {s t : State} (k : Nat) (h : step s = .next t) :
    Host.Core.run Sys2Proof.core (k + 1) s = Host.Core.run Sys2Proof.core k t := by
  have h' : Sys2Proof.core.step s = .next t := h
  simp only [Host.Core.run, h']

/-- A run of operations goes on from the registers its first operation writes. -/
theorem runOps_cons (i : Instr) (is : List Instr) (s : State) :
    runOps (i :: is) s = runOps is (writeRegs s (opRegs s.cfg i s.regs)) := by
  simp only [runOps, exec_eq]

end Sys2Proof.Machine
end

