-- ==== Sys2Proof/Laws/PerInstr.lean ====
section
/-! SUPPORT. Facts about every operation as syntax, one lemma a constructor. -/
namespace Sys2Proof.Laws.TableRow

/-- The canonical vector of an operation meets the operation's row of the opcode table, and the row is
in the table (30_encoding.md R42). -/
def Statement (i : Instr) : Prop := i.row ∈ opTable ∧ i.row.accepts (encode i) = true

theorem reset : Statement .reset := by
  unfold Statement
  decide

theorem sample (d : Bool) : Statement (.sample d) := by
  unfold Statement
  cases d <;> decide

theorem idle : Statement .idle := by
  unfold Statement
  decide

end Sys2Proof.Laws.TableRow
end

