-- ==== Sys2Proof/Laws/Poll.lean ====
section
/-! SUPPORT. One poll, case by case, in terms of the value `v` it can confirm. -/
namespace Sys2Proof.Machine

variable {n : Nat}

/-- The cases of a poll: the window fills up with the value not yet confirmed, or nothing changes
but the window (40_operations.md R52). -/
theorem poll_cases (w : BitVec n) (conf : Bool) :
    (w = fill n (!conf) ∧ pollConf w conf = (!conf) ∧ pollEvent w conf = eventTo (!conf)) ∨
    (w ≠ fill n (!conf) ∧ pollConf w conf = conf ∧ pollEvent w conf = .none) := by
  cases conf
  · by_cases h : w = ones n
    · left; subst h; simp [fill, pollConf, pollEvent, eventTo]
    · right; simp [fill, pollConf, pollEvent, h]
  · by_cases h : w = zeros n
    · left; subst h; simp [fill, pollConf, pollEvent, eventTo]
    · right; simp [fill, pollConf, pollEvent, h]

theorem eventTo_code_ne (v : Bool) : eventCode (eventTo v) ≠ eventCode .none := by
  cases v <;> decide

theorem eventTo_code_inj {a b : Bool} (h : eventCode (eventTo a) = eventCode (eventTo b)) : a = b := by
  revert h
  cases a <;> cases b <;> decide

/-- A poll that fills the window with the value not confirmed before. -/
theorem regsSample_event (r : Regs n) (d : Bool) (h : shiftIn r.win d = fill n (!r.conf)) :
    regsSample d r = { win := fill n (!r.conf), conf := !r.conf,
                       evt := eventCode (eventTo (!r.conf)), valid := true } := by
  rcases poll_cases (shiftIn r.win d) r.conf with ⟨_, hc, he⟩ | ⟨h', _⟩
  · simp only [regsSample, hc, he]
    rw [h]
  · exact absurd h h'

/-- A poll that does not. -/
theorem regsSample_quiet (r : Regs n) (d : Bool) (h : shiftIn r.win d ≠ fill n (!r.conf)) :
    regsSample d r = { win := shiftIn r.win d, conf := r.conf,
                       evt := eventCode .none, valid := true } := by
  rcases poll_cases (shiftIn r.win d) r.conf with ⟨h', _⟩ | ⟨_, hc, he⟩
  · exact absurd h' h
  · simp only [regsSample, hc, he]

/-- What a poll does to `CONF` and `EVT`, in the two cases. -/
theorem regsSample_cases (r : Regs n) (d : Bool) :
    (shiftIn r.win d = fill n (!r.conf) ∧ (regsSample d r).conf = (!r.conf) ∧
      (regsSample d r).evt = eventCode (eventTo (!r.conf))) ∨
    (shiftIn r.win d ≠ fill n (!r.conf) ∧ (regsSample d r).conf = r.conf ∧
      (regsSample d r).evt = eventCode .none) := by
  by_cases h : shiftIn r.win d = fill n (!r.conf)
  · exact Or.inl ⟨h, by rw [regsSample_event r d h], by rw [regsSample_event r d h]⟩
  · exact Or.inr ⟨h, by rw [regsSample_quiet r d h], by rw [regsSample_quiet r d h]⟩

/-- A sample of the confirmed value is never an event (40_operations.md R57). -/
theorem regsSample_confirmed (hn : 1 ≤ n) (r : Regs n) :
    regsSample r.conf r = { win := shiftIn r.win r.conf, conf := r.conf,
                            evt := eventCode .none, valid := true } := by
  apply regsSample_quiet
  intro h
  have := ((shiftIn_eq_fill_iff _ _ _ hn).1 h).1
  revert this
  cases r.conf <;> simp

@[simp] theorem regsSample_win (r : Regs n) (d : Bool) : (regsSample d r).win = shiftIn r.win d := rfl
@[simp] theorem regsSample_valid (r : Regs n) (d : Bool) : (regsSample d r).valid = true := rfl
@[simp] theorem regsIdle_win (r : Regs n) : (regsIdle r).win = r.win := rfl
@[simp] theorem regsIdle_conf (r : Regs n) : (regsIdle r).conf = r.conf := rfl
@[simp] theorem regsIdle_evt (r : Regs n) : (regsIdle r).evt = r.evt := rfl
@[simp] theorem regsIdle_valid (r : Regs n) : (regsIdle r).valid = false := rfl
@[simp] theorem regsReset_win (cfg : Config) : (regsReset cfg).win = fill cfg.depth cfg.init := rfl
@[simp] theorem regsReset_conf (cfg : Config) : (regsReset cfg).conf = cfg.init := rfl
@[simp] theorem regsReset_evt (cfg : Config) : (regsReset cfg).evt = eventCode .none := rfl
@[simp] theorem regsReset_valid (cfg : Config) : (regsReset cfg).valid = false := rfl

theorem resetFree_cons {i : Instr} {is : List Instr} :
    ResetFree (i :: is) ↔ i ≠ .reset ∧ ResetFree is := by
  simp [ResetFree, eq_comm]

/-- The window after a run without `RESET`: the samples of the run, newest first, then what was there
(10_state.md R16). -/
theorem runRegs_window_bit (cfg : Config) (is : List Instr) (r : Regs cfg.depth) (hf : ResetFree is)
    (i : Nat) (hi : i < cfg.depth) :
    (runRegs cfg is r).win.getLsbD i =
      if i < (samplesOf is).length then (samplesOf is).reverse.getD i false
      else r.win.getLsbD (i - (samplesOf is).length) := by
  induction is generalizing r with
  | nil => simp [runRegs, samplesOf]
  | cons j is ih =>
    rw [resetFree_cons] at hf
    rw [runRegs, ih _ hf.2]
    cases j with
    | reset => exact absurd rfl hf.1
    | idle => rfl
    | sample d =>
      simp only [opRegs_sample, samplesOf, List.length_cons, List.reverse_cons, regsSample_win]
      by_cases h : i < (samplesOf is).length
      · rw [if_pos h, if_pos (by omega), List.getD_append _ _ _ _ (by simpa using h)]
      · rw [if_neg h, shiftIn_bit _ _ _ (by omega)]
        by_cases h2 : i = (samplesOf is).length
        · subst h2
          simp
        · rw [if_neg (by omega), if_neg (by omega)]
          congr 1

end Sys2Proof.Machine
end

