-- ==== Sys2Proof/Laws/Ports.lean ====
section
/-! SUPPORT. Reading the outputs of an instance and the events of a system: what it answers, and when it
is a fault. -/
namespace Sys2Proof.Machine

/-- Every code but `0b11` stands for an event, and that event's code is it (10_state.md R17). -/
theorem eventOfCode_some (c : EvtCode) (h : c ≠ 0b11#2) :
    ∃ e, eventOfCode c = some e ∧ eventCode e = c := by
  have table : ∀ c : EvtCode, c ≠ 0b11#2 → (eventOfCode c).map eventCode = some c := by decide
  obtain ⟨e, he, hc⟩ := Option.map_eq_some_iff.1 (table c h)
  exact ⟨e, he, hc⟩

theorem eventOfCode_code (e : Event) : eventOfCode (eventCode e) = some e := by
  cases e <;> rfl

theorem portEdge_reserved {n : Nat} (r : Regs n) (h : r.evt = 0b11#2) :
    portEdge r = .error .evtReserved := by
  unfold portEdge
  rw [h]
  rfl

theorem portEdge_ok {n : Nat} (r : Regs n) (h : r.evt ≠ 0b11#2) :
    ∃ e, portEdge r = .ok e ∧ eventCode e = r.evt := by
  obtain ⟨e, he, hc⟩ := eventOfCode_some _ h
  exact ⟨e, by simp only [portEdge, he], hc⟩

/-- Reading the outputs answers unless `EVT = 0b11`. -/
theorem reading_ok (k : Nat) (s : State) (h : s.regs.evt ≠ 0b11#2) :
    ∃ x, reading k s = .ok x ∧ x.poll = k ∧ eventCode x.edge = s.regs.evt ∧
      x.level = s.regs.conf ∧ x.valid = s.regs.valid ∧ x.riseP = portRiseP s.regs ∧ x.fallP = portFallP s.regs := by
  obtain ⟨e, he, hc⟩ := portEdge_ok s.regs h
  exact ⟨_, by simp only [reading, outputs, he]; rfl, rfl, hc, rfl, rfl, rfl, rfl⟩

/-- One instance more: its event, if it is fresh, comes before those of the rest. -/
theorem freshEventsFrom_cons_ok {k : Nat} {s : State} {ss : List State} {e : Event}
    {es : List (Nat × Event)} (h : portEdge s.regs = .ok e) (hs : freshEventsFrom (k + 1) ss = .ok es) :
    freshEventsFrom k (s :: ss) =
      .ok (if s.regs.valid && e != .none then (k, e) :: es else es) := by
  simp only [freshEventsFrom, h, hs]

/-- A system in which no instance holds `0b11` reports its events, and none of them is `NONE`. -/
theorem freshEventsFrom_ok (k : Nat) (sys : List State) (h : ∀ s ∈ sys, s.regs.evt ≠ 0b11#2) :
    ∃ evs, freshEventsFrom k sys = .ok evs ∧ ∀ p ∈ evs, p.2 ≠ .none := by
  induction sys generalizing k with
  | nil => exact ⟨[], rfl, by simp⟩
  | cons s ss ih =>
    obtain ⟨e, he, _⟩ := portEdge_ok s.regs (h s (by simp))
    obtain ⟨es, hs, hn⟩ := ih (k + 1) (fun t ht => h t (by simp [ht]))
    refine ⟨_, freshEventsFrom_cons_ok he hs, ?_⟩
    split
    · rename_i hv
      intro p hp
      rcases List.mem_cons.1 hp with rfl | hp
      · simpa using (Bool.and_eq_true_iff.1 hv).2
      · exact hn p hp
    · exact hn

end Sys2Proof.Machine
end

