-- ==== Sys2Proof/Tests/Slice0.lean ====
section
/-! SUPPORT. Tests from the spec's own vectors (95_test_vectors.md, cited at each), the smoke test of the
well-formedness checks, and for every statement with hypotheses a witness that meets them. -/
namespace Sys2Proof.Machine.Tests

/-- An instance with the given registers, nothing scheduled. -/
def inst (cfg : Config) (w : BitVec cfg.depth) (c : Bool) (e : EvtCode) (v : Bool) : State :=
  { State.resetOf cfg 0 with regs := { win := w, conf := c, evt := e, valid := v } }

/-- The next state of an outcome. -/
def after (o : Host.Outcome State Fault Refusal) : Option State :=
  match o with
  | .next t => some t
  | .fault _ => none
  | .refused _ => none

/-- PWR_SHORT with `INIT = 1` (the instance of V-R2 and P5). -/
def shortOne : Config := { depth := 2, init := true, depth_pos := by decide }

/-- An instance of depth 1. -/
def depthOne : Config := { depth := 1, depth_pos := by decide }

/-! ### Well-formedness: what the checks refuse -/

theorem test_wf_refuses_depth_zero : depthOk 0 = false := by decide
theorem test_wf_refuses_samples_zero : (AsmLine.samples true 0).wellFormed = false := by decide
theorem test_wf_refuses_wait_zero : (AsmLine.wait 0).wellFormed = false := by decide
theorem test_wf_refuses_polls_zero : (AsmLine.polls false 0).wellFormed = false := by decide
theorem test_wf_refuses_a_program_with_a_bad_line :
    programWellFormed [.op .reset, .wait 0] = false := by decide
theorem test_wf_accepts_operations :
    programWellFormed [.op .reset, .op (.sample true), .poll false, .wait 1] = true := by decide

/-! ### Decoding: the vectors of section 2.1, written bit by bit `rst en din` -/

theorem test_decode_idle : decode 0b000#3 = .idle ∧ decode 0b001#3 = .idle := by decide
theorem test_decode_sample : decode 0b010#3 = .sample false ∧ decode 0b011#3 = .sample true := by decide
theorem test_decode_reset : decode 0b100#3 = .reset ∧ decode 0b101#3 = .reset ∧
    decode 0b110#3 = .reset ∧ decode 0b111#3 = .reset := by decide
theorem test_decode_table_words : decodeTableWord 8 4 = some .reset ∧
    decodeTableWord 8 2 = some (.sample false) ∧ decodeTableWord 8 0 = some .idle := by decide
theorem test_decode_refuses_a_fourth_bit : decodeTableWord 8 8 = none := by decide
theorem test_decode_bytes : decodeBytes [3#8, 200#8] = some (.ok (.sample true), [200#8]) ∧
    decodeBytes [200#8] = some (.error .beyondControlVector, []) := by decide

/-! ### The reserved event code in a system (60_exceptions.md R67): a fault, never an event -/

theorem test_system_reserved_code_is_a_fault :
    freshEvents [inst Config.pwrShort 0b11#2 true 0b01#2 true,
      inst Config.pwrLong 0x0000#16 false 0b11#2 true] = .error .evtReserved := by rfl
theorem test_system_fresh_events :
    freshEvents [inst Config.pwrShort 0b11#2 true 0b01#2 false,
      inst Config.pwrLong 0x0000#16 false 0b10#2 true] = .ok [(1, .fall)] := by rfl

/-! ### RESET: V-R2 and V-R3 -/

theorem test_reset_fills_with_init_one :
    after (exec .reset (inst shortOne 0b00#2 false 0b10#2 true)) =
      some (inst shortOne 0b11#2 true 0b00#2 false) := by decide
theorem test_reset_discards_the_sample :
    after (step ((inst Config.pwrLong 0xABCD#16 true 0b00#2 true).withFetchWord 8 0b111)) =
      some (inst Config.pwrLong 0x0000#16 false 0b00#2 false) := by decide

/-! ### SAMPLE: the last sample before confirmation, and the oldest bit leaving (section 2.4, N = 16) -/

theorem test_sample_sixteenth_one_rises :
    after (exec (.sample true) (inst Config.pwrLong 0x7FFF#16 false 0b00#2 false)) =
      some (inst Config.pwrLong 0xFFFF#16 true 0b01#2 true) := by decide
theorem test_sample_oldest_one_leaves :
    after (exec (.sample false) (inst Config.pwrLong 0x8000#16 true 0b00#2 false)) =
      some (inst Config.pwrLong 0x0000#16 false 0b10#2 true) := by decide

/-! ### IDLE: V-D1 and V-D4 -/

theorem test_idle_keeps_the_event :
    after (exec .idle (inst Config.pwrShort 0b11#2 true 0b01#2 true)) =
      some (inst Config.pwrShort 0b11#2 true 0b01#2 false) := by decide
theorem test_idle_ignores_din :
    after (step ((inst Config.pwrShort 0b10#2 true 0b00#2 true).withFetchWord 8 0b001)) =
      some (inst Config.pwrShort 0b10#2 true 0b00#2 false) := by decide

/-! ### Ports and program text -/

theorem test_ports_rise_pulse :
    outputs (inst Config.pwrShort 0b11#2 true 0b01#2 true) =
      .ok { level := true, edge := .rise, valid := true, riseP := true, fallP := false,
            win := some 0b11#2 } := by rfl
theorem test_ports_event_without_pulse :
    portRiseP (inst Config.pwrShort 0b11#2 true 0b01#2 false).regs = false := by decide

theorem test_parse_samples : parseLine
    ['S','A','M','P','L','E','S',' ','1',',',' ','1','5',' ',';',' ','x'] =
      .ok (some (.samples true 15)) := by rfl
theorem test_parse_comment_only : parseLine [' ', ';', ' ', 'I', 'D', 'L', 'E'] = .ok none := by rfl
theorem test_parse_refuses_count_zero :
    parseLine ['W','A','I','T',' ','0'] = .error .badOperands := by rfl
/-- The form of P5's tables, which R47 does not give (log entry 13). -/
theorem test_parse_refuses_levels_after_an_operation :
    parseLine ['I','D','L','E',' ','(','d','i','n','=','1',')'] = .error .badOperands := by rfl
theorem test_parse_refuses_unknown : parseLine ['N','O','P'] = .error .unknownMnemonic := by rfl
/-- Program P6's first three lines, in their vectors. -/
theorem test_assemble_p6 :
    assemble [.op .reset, .samples true 2, .op .idle] = [0b100#3, 0b011#3, 0b011#3, 0b000#3] := by
  decide

/-! ### Witnesses: the hypotheses of the statements are met -/

theorem witness_DecodeOfEncode : 3 ≤ 8 ∧ 8 ≤ 8 % 2 ^ 8 := by decide

theorem witness_AcceptedLinesAreWellFormed :
    parseProgram [['P','O','L','L',' ','1'], [';'], ['W','A','I','T',' ','2']] =
      .ok [.poll true, .wait 2] := by rfl

/-- Covers every statement about a drive whose next entry is given. -/
theorem witness_EachEdgePerformsOneOperation :
    (presentNext State.reset (pinsOfBits true true false)).inputs =
      pinsOfBits true true false :: [] := by decide

theorem witness_StepRunsTheDecodedVector :
    (presentNext State.reset (pinsOfBits false true true)).inputs =
      pinsOfBits false true true :: [] := by decide

theorem witness_UnsettledSampleIsAFreeDraw :
    (presentNext State.reset { rst := .low, en := .high, din := .unsettled }).inputs =
      { rst := .low, en := .high, din := .unsettled } :: [] ∧
    (presentNext State.reset
        { rst := .unsettled, en := levelOfBit true, din := levelOfBit false }).inputs =
      { rst := .unsettled, en := levelOfBit true, din := levelOfBit false } :: [] ∧
    (presentNext State.reset { rst := .low, en := .unsettled, din := levelOfBit true }).inputs =
      { rst := .low, en := .unsettled, din := levelOfBit true } :: [] := by decide

theorem witness_UnsettledSampleIsAFreeDraw_any_levels :
    ∃ (s : State) (bit : Level → Nat → Bool) (used : Level → Nat),
      s.inputs = { rst := .unsettled, en := .unsettled, din := .unsettled } :: [] ∧
      (∀ k, bit .low k = false ∧ bit .high k = true ∧
        bit .unsettled k = Config.freeLevel s.draws.stream k) ∧
      used .low = 0 ∧ used .high = 0 ∧ used .unsettled = 1 :=
  ⟨presentNext State.reset { rst := .unsettled, en := .unsettled, din := .unsettled },
    fun l k => (sampleLevel l { stream := 0, index := k }).1,
    fun l => (sampleLevel l { stream := 0, index := 0 }).2.index,
    rfl, fun _ => ⟨rfl, rfl, rfl⟩, rfl, rfl, rfl⟩

theorem witness_FetchedWordIsPerformed : 7 < 8 ∧ 3 ≤ 3 := by decide

theorem witness_HeldStrobeSamplesEveryEdge :
    ({ State.reset with inputs := [pinsOfBits false true true, pinsOfBits false true false,
        pinsOfBits false false true] } : State).inputs =
      [true, false].map (fun d => pinsOfBits false true d) ++ [pinsOfBits false false true] := by
  decide

theorem witness_StoppedClockKeepsTheState : State.reset.inputs = [] := by decide

theorem witness_ResetWritesTheStartupState :
    (0b111#3 : Ctl).getLsbD 2 = true ∧
    (presentNext State.reset (pinsOfBits true true true)).inputs = pinsOfBits true true true :: [] ∧
    State.reset.regs = Regs.atReset State.reset.cfg := by decide

theorem witness_ResetValueOfEveryRegister :
    Config.pwrLong.init = false ∧ ∃ f ∈ Config.firmware, f.cfg = Config.pwrLong := by decide

theorem witness_IdleClearsValidOnly :
    (0b001#3 : Ctl).getLsbD 2 = false ∧ (0b001#3 : Ctl).getLsbD 1 = false ∧
    (presentNext State.reset (pinsOfBits false false true)).inputs =
      pinsOfBits false false true :: [] := by decide

theorem witness_SampleFollowsThePseudocode_encoding :
    (0b010#3 : Ctl).getLsbD 2 = false ∧ (0b010#3 : Ctl).getLsbD 1 = true := by decide

theorem witness_SampleFollowsThePseudocode_depth_one :
    (State.resetOf depthOne 0).cfg.depth = 1 := by decide

theorem witness_SampleFollowsThePseudocode_settled :
    State.reset.regs.win = fill State.reset.cfg.depth false ∧ State.reset.regs.conf = false := by
  decide

theorem witness_SampleFollowsThePseudocode_hysteresis :
    2 ≤ State.reset.cfg.depth ∧ State.reset.regs.win = fill State.reset.cfg.depth (!true) ∧
    State.reset.regs.conf = (!true) := by decide

theorem witness_SampleFollowsThePseudocode_first_samples :
    State.reset.cfg.init = false ∧ ResetFree [.sample true, .idle] ∧
    pollCount [.sample true, .idle] < State.reset.cfg.depth := by decide

theorem witness_WindowHoldsTheLastSamples :
    ResetFree [.sample true, .idle, .sample false] ∧ 0 + 1 < State.reset.cfg.depth ∧
    1 < State.reset.cfg.depth := by decide

theorem witness_EventRegisterCodes :
    ResetFree [.idle, .idle] ∧ samplesOf [.idle, .idle] = [] := by decide

theorem witness_ConfirmedLevelChangesOnlyOnAFullWindow_changes :
    after (exec (.sample true) (inst Config.pwrShort 0b01#2 false 0b00#2 true)) =
      some (inst Config.pwrShort 0b11#2 true 0b01#2 true) := by decide

theorem witness_ConfirmedLevelChangesOnlyOnAFullWindow_keeps :
    after (exec (.sample true) (inst Config.pwrShort 0b10#2 true 0b00#2 true)) =
      some (inst Config.pwrShort 0b01#2 true 0b00#2 true) ∧ unanimous 0b01#2 = false := by decide

theorem witness_FlagsAreSetAndClearedAsTabled :
    (inst Config.pwrShort 0b01#2 false 0b00#2 true).regs.conf = false ∧
    (inst Config.pwrShort 0b10#2 true 0b00#2 true).regs.conf = true := by decide

theorem witness_ValidExactlyAfterASample : ResetFree [.sample true, .idle] := by decide

theorem witness_EqualWindowsDifferentLevels : unanimous 0b01#2 = false := by decide

theorem witness_StepKeepsTheInvariant :
    (presentNext State.reset (pinsOfBits false true true)).Inv ∧
    step (presentNext State.reset (pinsOfBits false true true)) =
      .next (inst Config.pwrShort 0b01#2 false 0b00#2 true) := ⟨by decide, rfl⟩

theorem witness_FullWindowAgreesWithTheLevel :
    Reachable State.reset ∧ unanimous State.reset.regs.win = true :=
  ⟨⟨State.reset, [], rfl, rfl⟩, by decide⟩

theorem witness_ReservedEventCodeIsAFault :
    Reachable State.reset ∧ (inst Config.pwrShort 0b00#2 false 0b11#2 false).regs.evt = 0b11#2 ∧
    State.reset.regs.evt ≠ 0b11#2 := ⟨⟨State.reset, [], rfl, rfl⟩, by decide, by decide⟩

theorem witness_ReservedEventCodeIsAFault_system :
    (∃ s ∈ [State.reset, inst Config.pwrShort 0b00#2 false 0b11#2 true], s.regs.evt = 0b11#2) ∧
    (∀ s ∈ firmwareSystem, s.regs.evt ≠ 0b11#2) := by decide

theorem witness_CounterAgreementIsKept :
    CounterAgrees State.reset.regs (runReset State.reset.cfg) ∧
    ∃ t, exec (.sample true) State.reset = .next t :=
  ⟨by unfold CounterAgrees; decide, _, rfl⟩

theorem witness_ReachablePairsExactly : depthOne.depth = 1 := by decide

theorem witness_PortsFollowTheirFormulas :
    (inst Config.pwrShort 0b11#2 true 0b01#2 true).regs.evt ≠ 0b11#2 ∧
    (inst Config.pwrShort 0b11#2 true 0b01#2 true).cfg.exposeWin = true ∧
    (withExposeWin false State.reset).cfg.exposeWin = false ∧
    (withExposeWin false State.reset).regs.evt ≠ 0b11#2 := by decide

theorem witness_ExposeWinChangesNothingElse :
    (outputs State.reset).toOption.isSome = true ∧
    exec (.sample true) State.reset = .next (inst Config.pwrShort 0b01#2 false 0b00#2 true) :=
  ⟨by decide, rfl⟩

theorem witness_OutputsAfterReset : State.reset.inputs = [] := by decide

theorem witness_ConfigurationIsStatic :
    (1 ≤ 1) ∧ configure 1 false true = .ok depthOne := by decide

theorem witness_ThreeModelOutcomes :
    (inst Config.pwrLong 0x0000#16 true 0b11#2 true).regs.evt = 0b11#2 := by decide

theorem witness_EventExactlyWhenTheLevelChanges : samplesOf [.idle, .reset] = [] := by decide

theorem witness_ClosedFormOfTheLevel :
    ResetFree [.sample true, .idle] ∧
    (∀ i, i < State.reset.cfg.depth →
      sampleBack State.reset.cfg.init (samplesOf [.sample true, .idle] ++ [true]) i = true) ∧
    ¬ (∀ i, i < State.reset.cfg.depth →
      sampleBack State.reset.cfg.init (samplesOf [.sample true, .idle] ++ [false]) i = false) := by
  decide

theorem witness_EventsAlternate :
    ResetFree [.sample true, .sample true] ∧
    (eventCodes (.reset :: [.sample true, .sample true]) State.reset).head? = some 0b01#2 := by decide

theorem witness_ConfirmedSamplesChangeNothing :
    (inst Config.pwrLong 0xFFFF#16 true 0b01#2 true).regs.conf = true ∧
    (inst Config.pwrLong 0xFFFF#16 true 0b01#2 true).regs.win =
      fill (inst Config.pwrLong 0xFFFF#16 true 0b01#2 true).cfg.depth true := by decide

theorem witness_EventsAreAtLeastNPollsApart :
    after (exec (.sample true) (inst Config.pwrShort 0b01#2 false 0b00#2 true)) =
      some (inst Config.pwrShort 0b11#2 true 0b01#2 true) ∧
    pollCount [.sample false, .idle] < 2 ∧ ResetFree [.sample false, .sample false] ∧
    (eventCodes [.sample false, .sample false]
      (inst Config.pwrShort 0b11#2 true 0b01#2 true)).head? = some 0b10#2 := by decide

theorem witness_RunIsConfirmedAtItsNthSample :
    State.reset.regs.conf = (!true) ∧ State.reset.regs.win.getLsbD 0 = (!true) ∧
    ResetFree [.sample true, .idle, .sample true] ∧
    samplesOf [.sample true, .idle, .sample true] = List.replicate 2 true ∧
    samplesOf [.sample true, .idle, .sample true] = List.replicate 2 (!State.reset.cfg.init) := by
  decide

theorem witness_NSamplesConfirmTheirLevel :
    ResetFree [.sample false, .sample true, .idle, .sample true] ∧
    samplesOf [.sample false, .sample true, .idle, .sample true] = [false] ++ List.replicate 2 true ∧
    State.reset.cfg.depth ≤ 2 := by decide

theorem witness_PulsesShowEachEventOnce : State.reset.regs.evt ≠ 0b11#2 := by decide

theorem witness_ReadingRecordsItsPoll : ResetFree [.sample true, .idle, .sample true] := by decide

theorem witness_PairNeverReportsTwoEvents :
    Pair.firmware.matched ∧
    (0b01#2, 0b00#2) ∈ pairPollCodes (.reset :: [.sample true, .sample true]) Pair.firmware := by
  decide

theorem witness_PairKeepsItsInvariant :
    Pair.firmware.Inv ∧ ∃ q, execPair .idle Pair.firmware = .next q :=
  ⟨by unfold Pair.Inv; decide, _, rfl⟩

theorem witness_PairLevelsAfterAHold :
    Pair.firmware.matched ∧ Pair.firmware.long.cfg.depth ≤ 16 := by decide

theorem witness_TapAndHoldAreTold :
    Pair.firmware.matched ∧ Pair.firmware.short.regs.conf = (!true) ∧
    Pair.firmware.long.regs.conf = (!true) ∧ Pair.firmware.short.regs.win.getLsbD 0 = (!true) ∧
    Pair.firmware.long.regs.win.getLsbD 0 = (!true) ∧ ResetFree [.sample true, .sample true] ∧
    samplesOf [.sample true, .sample true] = List.replicate 2 true := by decide

theorem witness_SameDriveIsOneOperationOnBoth :
    (presentNext Pair.firmware.short (pinsOfBits false true true)).inputs =
      pinsOfBits false true true :: [] ∧
    (presentNext Pair.firmware.long (pinsOfBits false true true)).inputs =
      pinsOfBits false true true :: [] := by decide

end Sys2Proof.Machine.Tests
end

/-! ## Proofs of the family 00_scope.md: the build-time parameters -/

namespace Sys2Proof.Machine

/-! ### Configuration and its lifetime (00_scope.md R4, 70_reset_and_hazards.md R88) -/

theorem configure_zero (init exposeWin : Bool) : configure 0 init exposeWin = .error .depthZero := rfl

theorem configure_of_pos {n : Nat} (h : 1 ≤ n) (init exposeWin : Bool) :
    configure n init exposeWin =
      .ok { depth := n, init := init, exposeWin := exposeWin, depth_pos := h } :=
  dif_pos h

/-- An operation writes registers only, so it leaves the parameters. -/
theorem exec_next_cfg (i : Instr) (s : State) : ∃ t, exec i s = .next t ∧ t.cfg = s.cfg :=
  ⟨_, exec_eq i s, writeRegs_cfg s _⟩

/-- A clock edge always completes; sampling the ports consumes drive and draws, never a parameter. -/
theorem step_next_cfg (s : State) : ∃ t, step s = .next t ∧ t.cfg = s.cfg := by
  rw [step_eq]
  cases s.inputs with
  | nil => exact ⟨s, rfl, rfl⟩
  | cons p rest =>
    exact exec_next_cfg (decode (samplePins p s.draws).1)
      { s with inputs := rest, draws := (samplePins p s.draws).2 }

/-- Settles O34: an operation writes registers only, and a step samples the ports and performs one. -/
theorem configurationIsStatic : Obligations.ConfigurationIsStatic :=
  ⟨configure_zero, fun _ i e hn => ⟨_, configure_of_pos hn i e, rfl, rfl, rfl⟩, Config.depth_pos,
    rfl, rfl, exec_next_cfg, step_next_cfg⟩

/-! ### `EXPOSE_WIN` (00_scope.md R6) -/

@[simp] theorem withExposeWin_regs (b : Bool) (s : State) : (withExposeWin b s).regs = s.regs := rfl

/-- The register transfers read `N` and `INIT` and no other parameter. -/
theorem opRegs_withExposeWin (b : Bool) (i : Instr) (s : State) :
    opRegs (withExposeWin b s).cfg i s.regs = opRegs s.cfg i s.regs := by
  cases i <;> rfl

theorem writeRegs_withExposeWin (b : Bool) (s : State) (r : Regs s.cfg.depth) :
    writeRegs (withExposeWin b s) r = withExposeWin b (writeRegs s r) := rfl

theorem portWin_withExposeWin (b : Bool) (s : State) :
    portWin (withExposeWin b s) = if b then some s.regs.win else none := rfl

/-- A build with another `EXPOSE_WIN` commutes with every operation. -/
theorem exec_withExposeWin (b : Bool) (i : Instr) (s : State) :
    exec i (withExposeWin b s) =
      .next (withExposeWin b (writeRegs s (opRegs s.cfg i s.regs))) := by
  rw [exec_eq, withExposeWin_regs, opRegs_withExposeWin, writeRegs_withExposeWin]

theorem portEdge_withExposeWin (b : Bool) (s : State) :
    portEdge (withExposeWin b s).regs = portEdge s.regs := rfl

/-- Where the outputs can be read they differ in `win` at most; where `EVT = 0b11` stops the reading, it
does so for both builds. -/
theorem outputs_withExposeWin (b : Bool) (s : State) :
    outputs (withExposeWin b s) =
      (outputs s).map fun o => { o with win := portWin (withExposeWin b s) } := by
  unfold outputs
  rw [portEdge_withExposeWin]
  cases portEdge s.regs with
  | ok e => rfl
  | error f => rfl

/-- Settles O32: the operations and the other ports are functions of the registers, `N` and `INIT`. -/
theorem exposeWinChangesNothingElse : Obligations.ExposeWinChangesNothingElse := by
  refine ⟨fun _ _ => rfl, portWin_withExposeWin, fun b s o ho => ?outputs, fun b i s t ht => ?state⟩
  case outputs =>
    rw [outputs_withExposeWin, ho]
    rfl
  case state =>
    rw [exec_eq] at ht
    rw [exec_withExposeWin, Host.Outcome.next.inj ht]

/-! ### The firmware table (00_scope.md R7) -/

/-- The pair on the power button satisfies what R60 requires of a pair: `2 < 16`, and equal `INIT`. -/
theorem firmware_matched : Pair.firmware.matched := ⟨by decide, rfl⟩

/-- Settles O35: the table's rows are the configured literals, and its pair is matched. -/
theorem firmwareInstanceTable : Obligations.FirmwareInstanceTable :=
  ⟨rfl, fun _ _ => rfl, firmware_matched, resetOf_cfg Config.pwrShort 0, resetOf_cfg Config.pwrLong 1⟩

end Sys2Proof.Machine

/-! ## Proofs of the family 10_state.md: the registers -/

namespace Sys2Proof.Machine

/-! ### Runs, by induction on the registers -/

/-- What every operation keeps, every run keeps. -/
theorem runRegs_induction {cfg : Config} {P : Regs cfg.depth → Prop}
    (hstep : ∀ i r, P r → P (opRegs cfg i r)) (is : List Instr) {r : Regs cfg.depth} (h : P r) :
    P (runRegs cfg is r) := by
  induction is generalizing r with
  | nil => exact h
  | cons i is ih => exact ih (hstep i r h)

/-- Reachability is about the registers: they are what some run leaves of the reset values. -/
theorem reachable_iff (s : State) :
    Reachable s ↔ ∃ is, s.regs = runRegs s.cfg is (regsReset s.cfg) := by
  constructor
  · rintro ⟨s0, is, -, hrun⟩
    rw [runOps_eq] at hrun
    obtain rfl := Host.Outcome.next.inj hrun
    exact ⟨is, rfl⟩
  · rintro ⟨is, hregs⟩
    refine ⟨s, is, rfl, ?_⟩
    rw [runOps_eq]
    exact congrArg Host.Outcome.next (congrArg (writeRegs s) hregs.symm)

/-- What holds of the reset values and is kept by every operation holds in every reachable state. -/
theorem Reachable.regs_induction {s : State} (h : Reachable s) {P : Regs s.cfg.depth → Prop}
    (hreset : P (regsReset s.cfg)) (hstep : ∀ i r, P r → P (opRegs s.cfg i r)) : P s.regs := by
  obtain ⟨is, hregs⟩ := (reachable_iff s).1 h
  rw [hregs]
  exact runRegs_induction hstep is hreset

/-! ### Reset values (10_state.md R21) -/

theorem regsReset_windowAgrees (cfg : Config) : WindowAgrees (regsReset cfg) := by
  intro _
  simp [show 0 < cfg.depth from cfg.depth_pos]

/-- Settles O16: `RESET` writes the reset values, whose window is full of the level they confirm. -/
theorem resetValueOfEveryRegister : Obligations.ResetValueOfEveryRegister := by
  refine ⟨fun _ _ => rfl, fun _ _ => rfl, fun cfg k hinit => ?zero, by decide, rfl, rfl,
    fun cfg _ => ⟨regsReset_windowAgrees cfg, rfl⟩⟩
  case zero =>
    rw [resetOf_regs, Regs.atReset, hinit]
    rfl

/-! ### `WIN` (10_state.md R16) -/

theorem regsReset_win_bit (cfg : Config) (i : Nat) (h : i < cfg.depth) :
    (regsReset cfg).win.getLsbD i = cfg.init := by
  simp [h]

/-- The window since a `RESET`: the samples of the run, and the reset fill beyond them. -/
theorem runRegs_regsReset_win_bit (cfg : Config) (is : List Instr) (hf : ResetFree is) (i : Nat)
    (hi : i < cfg.depth) :
    (runRegs cfg is (regsReset cfg)).win.getLsbD i = sampleBack cfg.init (samplesOf is) i := by
  rw [runRegs_window_bit cfg is _ hf i hi, sampleBack]
  split
  next hlt =>
    have hlt' : i < (samplesOf is).reverse.length := by simpa using hlt
    rw [List.getD_eq_getElem _ _ hlt', List.getD_eq_getElem _ _ hlt']
  next hge =>
    rw [List.getD_eq_default _ _ (by simpa using hge)]
    exact regsReset_win_bit cfg _ (by omega)

/-- Settles O19: one shift, and by induction on the run the samples since `RESET`. -/
theorem windowHoldsTheLastSamples : Obligations.WindowHoldsTheLastSamples := by
  refine ⟨fun d s => ⟨_, exec_eq _ s, rfl, ?newest, fun i hi => ?older⟩,
    fun s is hf => ⟨_, runOps_eq _ s, runRegs_regsReset_win_bit s.cfg is hf⟩⟩
  case newest => exact shiftIn_newest _ d s.cfg.depth_pos
  case older => exact shiftIn_bit s.regs.win d (i + 1) hi

/-! ### `EVT` and `VALID` (10_state.md R17, R20) -/

theorem eventCode_ne_reserved (e : Event) : eventCode e ≠ 0b11#2 := by
  cases e <;> decide

theorem opRegs_evt_ne_reserved (cfg : Config) (i : Instr) (r : Regs cfg.depth)
    (h : r.evt ≠ 0b11#2) : (opRegs cfg i r).evt ≠ 0b11#2 := by
  cases i with
  | reset => exact eventCode_ne_reserved .none
  | sample d => exact eventCode_ne_reserved _
  | idle => exact h

/-- The code a poll writes tells how it changed the level. -/
theorem regsSample_evt_codes {n : Nat} (r : Regs n) (d : Bool) :
    ((regsSample d r).evt = 0b00#2 ↔ (regsSample d r).conf = r.conf) ∧
    ((regsSample d r).evt = 0b01#2 ↔ r.conf = false ∧ (regsSample d r).conf = true) ∧
    ((regsSample d r).evt = 0b10#2 ↔ r.conf = true ∧ (regsSample d r).conf = false) := by
  rcases regsSample_cases r d with ⟨-, hconf, hevt⟩ | ⟨-, hconf, hevt⟩ <;> rw [hconf, hevt]
  · cases r.conf <;> decide
  · cases r.conf <;> decide

/-- `EVT` after a run without `RESET` is what its last poll wrote; `IDLE` operations keep it. -/
theorem runRegs_evt (cfg : Config) (is : List Instr) (r : Regs cfg.depth) (hf : ResetFree is) :
    (runRegs cfg is r).evt = (regCodes cfg is r).getLastD r.evt := by
  induction is generalizing r with
  | nil => rfl
  | cons i is ih =>
    rw [resetFree_cons] at hf
    rw [runRegs, ih _ hf.2]
    cases i with
    | reset => exact absurd rfl hf.1
    | idle => rfl
    | sample d => exact (List.getLastD_cons ..).symm

theorem samplesOf_length (is : List Instr) : (samplesOf is).length = pollCount is := by
  induction is with
  | nil => rfl
  | cons i is ih => cases i <;> simp [samplesOf, ih, pollCount, isPoll, List.countP_cons]

/-- A run without samples makes no poll. -/
theorem regCodes_of_no_samples (cfg : Config) (is : List Instr) (r : Regs cfg.depth)
    (h : samplesOf is = []) : regCodes cfg is r = [] := by
  rw [← List.length_eq_zero_iff, regCodes_length, ← samplesOf_length, h, List.length_nil]

theorem opRegs_valid_iff (cfg : Config) (i : Instr) (r : Regs cfg.depth) :
    (opRegs cfg i r).valid = true ↔ ∃ d, i = .sample d := by
  cases i <;> simp

/-- Settles O23: only a poll sets `VALID`, and only a poll or a `RESET` writes `EVT`. -/
theorem validExactlyAfterASample : Obligations.ValidExactlyAfterASample := by
  refine ⟨fun i s => ⟨_, exec_eq i s, opRegs_valid_iff s.cfg i s.regs⟩,
    fun s is hf => ⟨_, runOps_eq is s, ?_⟩⟩
  rw [pollCodes_eq]
  exact runRegs_evt s.cfg is s.regs hf

/-- Settles O20: each operation's write to `EVT`; a run without samples leaves the `NONE` of `RESET`. -/
theorem eventRegisterCodes : Obligations.EventRegisterCodes := by
  refine ⟨rfl, rfl, rfl, fun d s => ⟨_, exec_eq _ s, ?sample⟩, fun s => ⟨_, exec_eq _ s, rfl⟩,
    fun s => ⟨_, exec_eq _ s, rfl⟩, fun s is hf hno => ⟨_, runOps_eq _ s, ?noPoll⟩⟩
  case sample =>
    obtain ⟨hnone, hrise, hfall⟩ := regsSample_evt_codes s.regs d
    exact ⟨hnone, hrise, hfall, eventCode_ne_reserved _⟩
  case noPoll =>
    calc (runRegs s.cfg is (regsReset s.cfg)).evt
        = (regCodes s.cfg is (regsReset s.cfg)).getLastD (regsReset s.cfg).evt :=
          runRegs_evt s.cfg is _ hf
      _ = 0b00#2 := by rw [regCodes_of_no_samples _ _ _ hno]; rfl

/-! ### A full window agrees with `CONF` (10_state.md R25) -/

/-- `WindowAgrees` without `unanimous`: the window is not full of the value that is not confirmed. -/
theorem windowAgrees_iff {n : Nat} (hn : 1 ≤ n) (r : Regs n) :
    WindowAgrees r ↔ r.win ≠ fill n (!r.conf) := by
  rw [WindowAgrees, unanimous_iff _ hn]
  constructor
  · intro h hfill
    have hbit : r.win.getLsbD 0 = !r.conf := (eq_fill_iff _ _).1 hfill 0 hn
    have hconf : r.conf = !r.conf := (h (hbit ▸ hfill)).trans hbit
    simp at hconf
  · intro h hfull
    by_contra hne
    exact h (Bool.eq_not_of_ne (Ne.symm hne) ▸ hfull)

/-- A poll brings the window and the level into agreement, whatever they were: it confirms the value it
finds the window full of. -/
theorem regsSample_windowAgrees {n : Nat} (hn : 1 ≤ n) (r : Regs n) (d : Bool) :
    WindowAgrees (regsSample d r) := by
  rw [windowAgrees_iff hn]
  rcases regsSample_cases r d with ⟨hfill, hconf, -⟩ | ⟨hne, hconf, -⟩ <;>
    rw [hconf, regsSample_win]
  · rw [hfill, Ne, fill_inj hn]
    simp
  · exact hne

theorem opRegs_windowAgrees (cfg : Config) (i : Instr) (r : Regs cfg.depth) (h : WindowAgrees r) :
    WindowAgrees (opRegs cfg i r) := by
  cases i with
  | reset => exact regsReset_windowAgrees cfg
  | sample d => exact regsSample_windowAgrees cfg.depth_pos r d
  | idle => exact h

theorem Reachable.windowAgrees {s : State} (h : Reachable s) : WindowAgrees s.regs :=
  h.regs_induction (regsReset_windowAgrees s.cfg) (opRegs_windowAgrees s.cfg)

/-- Settles O27, by induction on the run: `RESET` and every poll establish the agreement. -/
theorem fullWindowAgreesWithTheLevel : Obligations.FullWindowAgreesWithTheLevel :=
  fun _ h => h.windowAgrees

/-! ### The reachable pairs (10_state.md R28) -/

theorem reachablePair_iff_run (cfg : Config) (w : BitVec cfg.depth) (c : Bool) :
    ReachablePair cfg w c ↔ ∃ is, (runRegs cfg is (regsReset cfg)).win = w ∧
      (runRegs cfg is (regsReset cfg)).conf = c := by
  constructor
  · rintro ⟨r, ins, k, hwin, hconf, hreach⟩
    obtain ⟨is, hregs⟩ := (reachable_iff _).1 hreach
    exact ⟨is, hregs ▸ hwin, hregs ▸ hconf⟩
  · rintro ⟨is, hwin, hconf⟩
    exact ⟨runRegs cfg is (regsReset cfg), [], ⟨0, 0⟩, hwin, hconf, (reachable_iff _).2 ⟨is, rfl⟩⟩

theorem ReachablePair.ne_fill {cfg : Config} {w : BitVec cfg.depth} {c : Bool}
    (h : ReachablePair cfg w c) : w ≠ fill cfg.depth (!c) := by
  obtain ⟨r, ins, k, rfl, rfl, hreach⟩ := h
  exact (windowAgrees_iff cfg.depth_pos r).1 hreach.windowAgrees

/-- A poll that does not fill the window with the other value keeps the level. -/
theorem ReachablePair.sample {cfg : Config} {w : BitVec cfg.depth} {c : Bool}
    (h : ReachablePair cfg w c) (d : Bool) (hne : shiftIn w d ≠ fill cfg.depth (!c)) :
    ReachablePair cfg (shiftIn w d) c := by
  obtain ⟨is, rfl, rfl⟩ := (reachablePair_iff_run ..).1 h
  refine (reachablePair_iff_run ..).2 ⟨is ++ [.sample d], ?_⟩
  rw [runRegs_append, runRegs, runRegs, opRegs_sample, regsSample_quiet _ _ hne]
  exact ⟨rfl, rfl⟩

theorem samplesOf_replicate_sample (k : Nat) (v : Bool) :
    samplesOf (List.replicate k (.sample v)) = List.replicate k v := by
  induction k with
  | zero => rfl
  | succ k ih => simp [List.replicate_succ, samplesOf, ih]

theorem resetFree_replicate_sample (k : Nat) (v : Bool) :
    ResetFree (List.replicate k (.sample v)) := by
  simp [ResetFree, List.mem_replicate]

/-- N samples of one value fill the window with it. -/
theorem runRegs_replicate_sample_win (cfg : Config) (v : Bool) (r : Regs cfg.depth) :
    (runRegs cfg (List.replicate cfg.depth (.sample v)) r).win = fill cfg.depth v := by
  rw [eq_fill_iff]
  intro i hi
  rw [runRegs_window_bit cfg _ r (resetFree_replicate_sample _ v) i hi, samplesOf_replicate_sample]
  simp [hi]

/-- N samples of a value reach the window full of it, which must then agree with the level. -/
theorem reachablePair_fill (cfg : Config) (c : Bool) : ReachablePair cfg (fill cfg.depth c) c := by
  have hwin := runRegs_replicate_sample_win cfg c (regsReset cfg)
  have hpair := (reachablePair_iff_run cfg _ _).2 ⟨_, hwin, rfl⟩
  have hne := hpair.ne_fill
  rw [Ne, fill_inj cfg.depth_pos, Bool.eq_not] at hne
  rwa [← not_not.1 hne] at hpair

/-- Every window is one shift of another, whose oldest bit is free. -/
theorem exists_shiftIn_eq {n : Nat} (hn : 1 ≤ n) (w : BitVec n) (c : Bool) :
    ∃ u d, shiftIn u d = w ∧ u.getLsbD (n - 1) = c := by
  refine ⟨BitVec.ofFnLE fun i => if i + 1 < n then w.getLsbD (i + 1) else c, w.getLsbD 0, ?_, ?_⟩
  · apply BitVec.eq_of_getLsbD_eq
    intro i hi
    rw [shiftIn_bit _ _ _ hi]
    cases i with
    | zero => rfl
    | succ i => simp [hi, show i < n by omega]
  · simp [show n - 1 < n by omega, show ¬ n - 1 + 1 < n by omega]

/-- By induction on how many of the newest bits may differ from the level: go back one poll, to a window
whose oldest bit is the level, so that no window on the way is full of the other value. -/
theorem reachablePair_of_older_bits (cfg : Config) (c : Bool) (k : Nat) (w : BitVec cfg.depth)
    (hold : ∀ i, k ≤ i → i < cfg.depth → w.getLsbD i = c) (hne : w ≠ fill cfg.depth (!c)) :
    ReachablePair cfg w c := by
  induction k generalizing w with
  | zero =>
    rw [(eq_fill_iff w c).2 fun i hi => hold i (Nat.zero_le i) hi]
    exact reachablePair_fill cfg c
  | succ k ih =>
    have hn := cfg.depth_pos
    obtain ⟨u, d, rfl, htop⟩ := exists_shiftIn_eq hn w c
    have hu : ∀ i, k ≤ i → i < cfg.depth → u.getLsbD i = c := by
      intro i hk hi
      by_cases hlast : i + 1 < cfg.depth
      · simpa [shiftIn_bit _ _ _ hlast] using hold (i + 1) (by omega) hlast
      · rwa [show i = cfg.depth - 1 by omega]
    refine (ih u hu fun hfill => ?_).sample d hne
    have hflip : u.getLsbD (cfg.depth - 1) = !c := (eq_fill_iff _ _).1 hfill _ (by omega)
    simp [htop] at hflip

/-- The reachable pairs: the window is not full of the value that is not confirmed. -/
theorem reachablePair_iff (cfg : Config) (w : BitVec cfg.depth) (c : Bool) :
    ReachablePair cfg w c ↔ w ≠ fill cfg.depth (!c) :=
  ⟨ReachablePair.ne_fill,
    reachablePair_of_older_bits cfg c cfg.depth w fun i hge hlt => absurd hlt (by omega)⟩

theorem ne_fill_not_iff {n : Nat} (w : BitVec n) (c : Bool) :
    w ≠ fill n (!c) ↔ ¬ (w = zeros n ∧ c = true) ∧ ¬ (w = ones n ∧ c = false) := by
  cases c <;> simp [fill]

theorem natCard_bitVec_prod_bool (n : Nat) : Nat.card (BitVec n × Bool) = 2 ^ (n + 1) := by
  rw [Nat.card_prod, Nat.card_eq_fintype_card, ← FinEnum.card_eq_fintypeCard, FinEnum.card_bitVec,
    Nat.card_eq_fintype_card, Fintype.card_bool, pow_succ]

/-- All pairs but one for each level: the window full of the other value. -/
theorem ncard_ne_fill (n : Nat) :
    Set.ncard {p : BitVec n × Bool | p.1 ≠ fill n (!p.2)} = 2 ^ (n + 1) - 2 := by
  have hinj : Function.Injective fun c : Bool => (fill n (!c), c) := fun _ _ h =>
    congrArg Prod.snd h
  have hcompl : {p : BitVec n × Bool | p.1 ≠ fill n (!p.2)} =
      (Set.range fun c : Bool => (fill n (!c), c))ᶜ := by
    ext ⟨w, c⟩
    simp only [Set.mem_ofPred_eq, Set.mem_compl_iff, Set.mem_range, Prod.mk.injEq, exists_eq_right]
    exact ne_comm
  rw [hcompl, Set.ncard_compl, Set.ncard_range_of_injective hinj, natCard_bitVec_prod_bool,
    Nat.card_eq_fintype_card, Fintype.card_bool]

/-- At depth 1 every window is full of its one bit. -/
theorem ne_fill_not_iff_of_depth_one {n : Nat} (hn : n = 1) (w : BitVec n) (c : Bool) :
    w ≠ fill n (!c) ↔ w = fill n c := by
  have hw : w = fill n (w.getLsbD 0) :=
    (eq_fill_iff _ _).2 fun i hi => by rw [show i = 0 by omega]
  rw [hw, Ne, fill_inj hn.ge, fill_inj hn.ge, Bool.eq_not, not_not]

/-- Settles O29: the reachable pairs are those of `reachablePair_iff`, counted by their complement. -/
theorem reachablePairsExactly : Obligations.ReachablePairsExactly := by
  intro cfg
  simp only [reachablePair_iff]
  exact ⟨ne_fill_not_iff, ncard_ne_fill cfg.depth, ne_fill_not_iff_of_depth_one⟩

/-! ### What changes `CONF` (10_state.md R18) -/

/-- A window of depth 2 with a sample of each value. -/
theorem mixed_ne_fill : 0b01#2 ≠ fill 2 true ∧ 0b01#2 ≠ fill 2 false := by decide

/-- Settles O21: only a poll that fills the window confirms another level, and a window that is not
unanimous is reachable with both levels. -/
theorem confirmedLevelChangesOnlyOnAFullWindow :
    Obligations.ConfirmedLevelChangesOnlyOnAFullWindow := by
  refine ⟨fun i s => ⟨_, exec_eq i s, ?_⟩, Config.pwrShort, 0b01#2,
    (reachablePair_iff ..).2 mixed_ne_fill.1, (reachablePair_iff ..).2 mixed_ne_fill.2⟩
  cases i with
  | reset => exact ⟨fun _ => Or.inl rfl, fun ⟨_, h⟩ => nomatch h⟩
  | idle => exact ⟨fun h => absurd rfl h, fun ⟨_, h⟩ => nomatch h⟩
  | sample d =>
    rcases regsSample_cases s.regs d with ⟨hfill, -, -⟩ | ⟨-, hkept, -⟩
    · refine ⟨fun _ => Or.inr ⟨⟨d, rfl⟩, hfill⟩, fun _ hmixed => ?_⟩
      have hfull : unanimous (shiftIn s.regs.win d) = true := by rw [hfill, unanimous_fill]
      nomatch hfull.symm.trans hmixed
    · exact ⟨fun h => absurd hkept h, fun _ _ => hkept⟩

/-! ### Reading the registers (10_state.md R24, R27) -/

/-- Settles O30: `outputs` reads neither `inputs` nor `draws`, so both sides are the same term. -/
theorem outputsDependOnRegistersOnly : Obligations.OutputsDependOnRegistersOnly :=
  fun _ _ _ _ _ _ => rfl

theorem outputs_reserved (s : State) (h : s.regs.evt = 0b11#2) :
    outputs s = .error .evtReserved := by
  simp only [outputs, portEdge_reserved s.regs h]

theorem outputs_ok (s : State) (h : s.regs.evt ≠ 0b11#2) : ∃ o, outputs s = .ok o := by
  obtain ⟨e, he, -⟩ := portEdge_ok s.regs h
  exact ⟨_, by simp only [outputs, he]; rfl⟩

/-- A recorded run meets the code at its first reading, since `IDLE` keeps `EVT`. -/
theorem readings_idle_reserved (k : Nat) (is : List Instr) (s : State) (h : s.regs.evt = 0b11#2) :
    readings k (.idle :: is) s = .fault .evtReserved := by
  have hidle : outputs (writeRegs s (regsIdle s.regs)) = .error .evtReserved := outputs_reserved _ h
  simp only [readings, exec_eq, opRegs_idle, reading, hidle]

/-- One member with the reserved code makes the reading of the whole system a fault: no other fault
can come before it. -/
theorem freshEventsFrom_reserved (k : Nat) (sys : List State) (h : ∃ s ∈ sys, s.regs.evt = 0b11#2) :
    freshEventsFrom k sys = .error .evtReserved := by
  induction sys generalizing k with
  | nil => simp at h
  | cons s ss ih =>
    rw [freshEventsFrom]
    by_cases hs : s.regs.evt = 0b11#2
    · rw [portEdge_reserved s.regs hs]
    · obtain ⟨e, he, -⟩ := portEdge_ok s.regs hs
      have hss : ∃ t ∈ ss, t.regs.evt = 0b11#2 := by simpa [hs] using h
      rw [he, ih (k + 1) hss]

theorem Reachable.evt_ne_reserved {s : State} (h : Reachable s) : s.regs.evt ≠ 0b11#2 :=
  h.regs_induction (eventCode_ne_reserved .none) (opRegs_evt_ne_reserved s.cfg)

/-- Settles O28: no operation writes the code, and every reading of it is a fault. -/
theorem reservedEventCodeIsAFault : Obligations.ReservedEventCodeIsAFault := by
  refine ⟨fun _ h => h.evt_ne_reserved,
    fun s h => ⟨outputs_reserved s h, by rw [h]; rfl, fun k is => readings_idle_reserved k is s h⟩,
    outputs_ok, fun sys h => ?fault, fun sys h => ?order⟩
  case fault =>
    have hfault : freshEvents sys = .error .evtReserved := freshEventsFrom_reserved 0 sys h
    refine ⟨hfault, fun order ⟨evs, hevs, _⟩ => ?_⟩
    rw [hfault] at hevs
    nomatch hevs
  case order =>
    obtain ⟨evs, hevs, -⟩ := freshEventsFrom_ok 0 sys h
    exact ⟨evs, evs, hevs, .refl evs⟩

end Sys2Proof.Machine

/-! ## Proofs of the family 30_encoding.md: control vectors and program lines -/

namespace Sys2Proof.Machine

/-! ### Decoding (30_encoding.md R41, R42) -/

theorem ctlOfBits_getLsbD (r e d : Bool) :
    (ctlOfBits r e d).getLsbD 2 = r ∧ (ctlOfBits r e d).getLsbD 1 = e ∧
      (ctlOfBits r e d).getLsbD 0 = d := by
  cases r <;> cases e <;> cases d <;> decide

/-- The table read by its fields: `rst` takes precedence over `en`, and `din` is a `SAMPLE`'s operand. -/
theorem decode_ctlOfBits (r e d : Bool) :
    decode (ctlOfBits r e d) = if r then .reset else if e then .sample d else .idle := by
  obtain ⟨hr, he, hd⟩ := ctlOfBits_getLsbD r e d
  rw [decode, hr, he, hd]

theorem masked_eq_reset_iff : ∀ c : Ctl, c &&& 0b100#3 = 0b100#3 ↔ decode c = .reset := by
  decide

theorem masked_eq_sample_iff :
    ∀ c : Ctl, c &&& 0b110#3 = 0b010#3 ↔ decode c = .sample (c.getLsbD 0) := by
  decide

theorem masked_eq_idle_iff : ∀ c : Ctl, c &&& 0b110#3 = 0b000#3 ↔ decode c = .idle := by
  decide

/-- The rows of the table are disjoint and cover the eight vectors. -/
theorem opTable_countP_accepts : ∀ c : Ctl, opTable.countP (fun r => r.accepts c) = 1 := by
  decide

/-- Settles O1: the eight vectors by evaluation, each pattern by its mask. -/
theorem decodeFollowsTheTable : Obligations.DecodeFollowsTheTable :=
  ⟨rfl, rfl, rfl, rfl, rfl, rfl, rfl, rfl, masked_eq_reset_iff, masked_eq_sample_iff,
    masked_eq_idle_iff, opTable_countP_accepts⟩

/-! ### A step with valid levels on the ports (30_encoding.md R41, R44) -/

/-- Settles O7: the bits of the vector are the ports' levels, and the step performs it. -/
theorem stepRunsTheDecodedVector : Obligations.StepRunsTheDecodedVector := by
  intro s r e d rest hin
  obtain ⟨hr, he, hd⟩ := ctlOfBits_getLsbD r e d
  exact ⟨hr, he, hd, step_pinsOfBits s r e d rest hin⟩

/-- The operation an edge with these levels performs, read from the levels. -/
theorem step_inputs_pinsOfBits (s : State) (r e d : Bool) (rest : List Pins) :
    step { s with inputs := pinsOfBits r e d :: rest } =
      exec (if r then .reset else if e then .sample d else .idle) { s with inputs := rest } := by
  rw [step_pinsOfBits _ r e d rest rfl, decode_ctlOfBits]

/-- Settles O3: the operation selected does not depend on the ignored levels. -/
theorem ignoredBitsHaveNoEffect : Obligations.IgnoredBitsHaveNoEffect := by
  intro s rest e e' d d'
  have hreset (e d : Bool) := step_inputs_pinsOfBits s true e d rest
  have hidle (d : Bool) := step_inputs_pinsOfBits s false false d rest
  exact ⟨(hreset e d).trans (hreset e' d').symm, (hidle d).trans (hidle d').symm⟩

/-! ### Program lines (30_encoding.md R48) -/

/-- Settles O4: the expansions are those of the definition, and each count is checked against 1. -/
theorem pseudoOperationsExpand : Obligations.PseudoOperationsExpand :=
  ⟨fun _ _ => rfl, fun _ => rfl, fun _ => rfl, fun _ _ => rfl, fun _ _ => decide_eq_true_iff,
    fun _ => decide_eq_true_iff, fun _ _ => decide_eq_true_iff⟩

end Sys2Proof.Machine

/-! ## Proofs of the family 40_operations.md: the three operations and their laws -/

namespace Sys2Proof.Machine

/-! ### One operation an edge, and the same operation repeated (40_operations.md R49) -/

/-- Settles O6: `step` by its equation, and every operation completes without touching the drive. -/
theorem eachEdgePerformsOneOperation : Obligations.EachEdgePerformsOneOperation := by
  intro s p rest hin
  have hstep : step s = exec (decode (samplePins p s.draws).1)
      { s with inputs := rest, draws := (samplePins p s.draws).2 } := by
    rw [step_eq, hin]
  exact ⟨hstep, _, by rw [hstep, exec_eq], writeRegs_inputs _ _⟩

/-- An operation that changes nothing when done again can be repeated any number of times. -/
theorem runRegs_replicate_succ_of_idempotent {cfg : Config} {i : Instr} {r : Regs cfg.depth}
    (h : opRegs cfg i (opRegs cfg i r) = opRegs cfg i r) (k : Nat) :
    runRegs cfg (List.replicate (k + 1) i) r = opRegs cfg i r := by
  induction k with
  | zero => rfl
  | succ k ih =>
    calc runRegs cfg (List.replicate (k + 1 + 1) i) r
        = runRegs cfg (List.replicate k i) (opRegs cfg i (opRegs cfg i r)) := rfl
      _ = runRegs cfg (List.replicate k i) (opRegs cfg i r) := by rw [h]
      _ = opRegs cfg i r := ih

theorem runOps_replicate_succ_of_idempotent {i : Instr} {s : State}
    (h : opRegs s.cfg i (opRegs s.cfg i s.regs) = opRegs s.cfg i s.regs) (k : Nat) :
    runOps (List.replicate (k + 1) i) s = exec i s := by
  rw [runOps_eq, runRegs_replicate_succ_of_idempotent h, exec_eq]

/-! ### `RESET` (40_operations.md R50) -/

theorem decode_of_rst {c : Ctl} (hrst : c.getLsbD 2 = true) : decode c = .reset := by
  simp [decode, hrst]

theorem portPulses_of_none {n : Nat} {r : Regs n} (h : r.evt = eventCode .none) :
    portRiseP r = false ∧ portFallP r = false := by
  simp [portRiseP, portFallP, h, eventCode]

theorem portPulses_of_invalid {n : Nat} {r : Regs n} (h : r.valid = false) :
    portRiseP r = false ∧ portFallP r = false := by
  simp [portRiseP, portFallP, h]

theorem exec_reset_atReset (s : State) (h : s.regs = Regs.atReset s.cfg) :
    exec .reset s = .next s := by
  rw [exec_eq, opRegs_reset, regsReset_eq_atReset, ← h, writeRegs_self]

/-- Settles O15: `RESET` writes constants of the configuration, so neither the state, the sample nor a
second `RESET` bears on what it leaves. -/
theorem resetWritesTheStartupState : Obligations.ResetWritesTheStartupState := by
  refine ⟨fun _ => decode_of_rst, fun s => exec_eq .reset s, fun s d rest hin => ?edge,
    fun s => ⟨_, exec_eq .reset s, rfl, portPulses_of_none rfl⟩, exec_reset_atReset,
    fun s => runOps_replicate_succ_of_idempotent rfl, rfl⟩
  case edge => rw [step_pinsOfBits s true true d rest hin, decode_ctlOfBits, if_pos rfl]

/-! ### `IDLE` (40_operations.md R51) -/

theorem decode_of_no_rst_no_en {c : Ctl} (hrst : c.getLsbD 2 = false) (hen : c.getLsbD 1 = false) :
    decode c = .idle := by
  rw [decode, hrst, hen]
  rfl

/-- `IDLE` keeps the port, the code `0b11` included. -/
theorem portEdge_regsIdle {n : Nat} (r : Regs n) : portEdge (regsIdle r) = portEdge r := rfl

/-- Settles O17: `IDLE` writes `VALID` alone, and a second one writes the same. -/
theorem idleClearsValidOnly : Obligations.IdleClearsValidOnly := by
  refine ⟨fun _ => decode_of_no_rst_no_en, fun s => exec_eq .idle s, fun s d rest hin => ?edge,
    fun s => ⟨_, exec_eq .idle s, portEdge_regsIdle s.regs, portPulses_of_invalid rfl⟩,
    fun s => runOps_replicate_succ_of_idempotent rfl, rfl⟩
  case edge => rw [step_pinsOfBits s false false d rest hin, decode_ctlOfBits]; rfl

/-! ### One poll: what it confirms and what it reports (40_operations.md R52, R55) -/

section Poll

variable {n : Nat}

/-- A poll confirms the value it leaves the window full of, and only then changes the level. -/
theorem regsSample_conf (hn : 1 ≤ n) (r : Regs n) (d : Bool) :
    (regsSample d r).conf = if shiftIn r.win d = fill n d then d else r.conf := by
  rcases regsSample_cases r d with ⟨hfill, hconf, -⟩ | ⟨hne, hconf, -⟩
  · obtain ⟨rfl, -⟩ := (shiftIn_eq_fill_iff _ _ _ hn).1 hfill
    rw [if_pos hfill, hconf]
  · rw [hconf]
    split
    next hfull =>
      rw [hfull, Ne, fill_inj hn, Bool.eq_not, not_not] at hne
      exact hne.symm
    next => rfl

/-- A poll reports an event exactly when it changes the level. -/
theorem regsSample_evt_ne_none_iff (r : Regs n) (d : Bool) :
    (regsSample d r).evt ≠ eventCode .none ↔ (regsSample d r).conf ≠ r.conf :=
  not_congr (regsSample_evt_codes r d).1

/-- The event of a poll is the change of the level (40_operations.md R54's `EVT_k`). -/
theorem regsSample_evt (r : Regs n) (d : Bool) :
    (regsSample d r).evt =
      if r.conf = false ∧ (regsSample d r).conf = true then eventCode .rise
      else if r.conf = true ∧ (regsSample d r).conf = false then eventCode .fall
      else eventCode .none := by
  rcases regsSample_cases r d with ⟨-, hconf, hevt⟩ | ⟨-, hconf, hevt⟩ <;>
    rw [hconf, hevt] <;> cases r.conf <;> rfl

/-- The pseudocode of R52, its three branches. -/
theorem regsSample_eq_ite (r : Regs n) (d : Bool) :
    regsSample d r =
      if shiftIn r.win d = ones n ∧ r.conf = false then
        { win := shiftIn r.win d, conf := true, evt := eventCode .rise, valid := true }
      else if shiftIn r.win d = zeros n ∧ r.conf = true then
        { win := shiftIn r.win d, conf := false, evt := eventCode .fall, valid := true }
      else { win := shiftIn r.win d, conf := r.conf, evt := eventCode .none, valid := true } := by
  simp only [regsSample, pollConf, pollEvent]
  split
  · rfl
  · split <;> rfl

/-- At depth 1 a poll confirms its sample. -/
theorem regsSample_conf_of_depth_one (hn : n = 1) (r : Regs n) (d : Bool) :
    (regsSample d r).conf = d := by
  have hfull : shiftIn r.win d = fill n d :=
    (shiftIn_eq_fill_iff _ _ _ hn.ge).2 ⟨rfl, fun i hi => by omega⟩
  rw [regsSample_conf hn.ge, if_pos hfull]

/-- A sample of the confirmed value into a window full of it changes `EVT` and `VALID` only. -/
theorem regsSample_settled (hn : 1 ≤ n) {r : Regs n} {v : Bool} (hwin : r.win = fill n v)
    (hconf : r.conf = v) :
    regsSample v r = { win := r.win, conf := r.conf, evt := eventCode .none, valid := true } := by
  subst hconf
  rw [regsSample_confirmed hn, hwin, shiftIn_fill _ hn, ← hwin]

/-- One sample of the other value leaves a full window of depth 2 or more full of neither. -/
theorem shiftIn_fill_not_ne_fill (hn : 2 ≤ n) (d b : Bool) : shiftIn (fill n (!d)) d ≠ fill n b := by
  intro h
  obtain ⟨rfl, hold⟩ := (shiftIn_eq_fill_iff _ _ _ (by omega)).1 h
  have hflip := hold 0 (by omega)
  simp [show 0 < n by omega] at hflip

/-- A poll never reports the event to the level already confirmed: the check is against `CONF`. -/
theorem regsSample_evt_ne_eventTo_conf (r : Regs n) (d : Bool) :
    (regsSample d r).evt ≠ eventCode (eventTo r.conf) := by
  rcases regsSample_cases r d with ⟨-, -, hevt⟩ | ⟨-, -, hevt⟩ <;> rw [hevt]
  · exact fun h => Bool.not_ne_self _ (eventTo_code_inj h)
  · exact (eventTo_code_ne _).symm

end Poll

/-! ### The reports of a run, one operation at a time (40_operations.md R54, R55) -/

section Codes

variable (cfg : Config) (is : List Instr) (r : Regs cfg.depth)

@[simp] theorem regCodes_nil : regCodes cfg [] r = [] := rfl

@[simp] theorem regCodes_reset :
    regCodes cfg (.reset :: is) r = regCodes cfg is (regsReset cfg) := rfl

@[simp] theorem regCodes_idle : regCodes cfg (.idle :: is) r = regCodes cfg is (regsIdle r) := rfl

@[simp] theorem regCodes_sample (d : Bool) :
    regCodes cfg (.sample d :: is) r =
      (regsSample d r).evt :: regCodes cfg is (regsSample d r) := rfl

end Codes

theorem eventCodes_eq_nil_iff (is : List Instr) (s : State) :
    eventCodes is s = [] ↔ ∀ c ∈ regCodes s.cfg is s.regs, c = eventCode .none := by
  simp [eventCodes, pollCodes_eq, List.filter_eq_nil_iff]

theorem eventCodes_head? (is : List Instr) (s : State) :
    (eventCodes is s).head? = (regCodes s.cfg is s.regs).find? (fun c => c != eventCode .none) := by
  rw [eventCodes, pollCodes_eq, List.head?_filter]

theorem eventCodes_of_no_samples (s : State) {is : List Instr} (h : samplesOf is = []) :
    eventCodes is s = [] := by
  rw [eventCodes_eq_nil_iff, regCodes_of_no_samples _ _ _ h]
  simp

theorem eventCodes_reset_cons (is : List Instr) (s : State) :
    eventCodes (.reset :: is) s = eventCodes is (writeRegs s (regsReset s.cfg)) := by
  simp only [eventCodes, pollCodes_eq]
  rfl

/-- Settles O37: the event of a poll is the change of the level, and only polls report. -/
theorem eventExactlyWhenTheLevelChanges : Obligations.EventExactlyWhenTheLevelChanges := by
  refine ⟨fun d s => ⟨_, exec_eq _ s, rfl, regsSample_evt_ne_none_iff s.regs d, ?exclusive⟩,
    fun s => ⟨_, exec_eq .reset s, rfl⟩,
    fun s => ⟨_, exec_eq .idle s, portPulses_of_invalid rfl⟩,
    fun s _ => eventCodes_of_no_samples s⟩
  case exclusive =>
    rintro ⟨hrise, hfall⟩
    exact absurd (hrise.symm.trans hfall) (by decide)

/-- With no `RESET` before it, the first event of a run is to the level not confirmed at its start. -/
theorem regCodes_first_event (cfg : Config) (is : List Instr) (r : Regs cfg.depth) (e : EvtCode)
    (hf : ResetFree is)
    (he : (regCodes cfg is r).find? (fun c => c != eventCode .none) = some e) :
    e = eventCode (eventTo (!r.conf)) := by
  induction is generalizing r with
  | nil => nomatch he
  | cons i is ih =>
    obtain ⟨hi, hfree⟩ := resetFree_cons.1 hf
    cases i with
    | reset => exact absurd rfl hi
    | idle => exact ih (regsIdle r) hfree he
    | sample d =>
      rw [regCodes_sample] at he
      rcases regsSample_cases r d with ⟨-, -, hevt⟩ | ⟨-, hconf, hevt⟩
      · rw [List.find?_cons_of_pos (by simp [hevt, eventTo_code_ne]), hevt] at he
        exact (Option.some.inj he).symm
      · rw [List.find?_cons_of_neg (by simp [hevt])] at he
        exact hconf ▸ ih (regsSample d r) hfree he

/-! ### Fewer than N polls after a full window (40_operations.md R58) -/

/-- All but the `k` newest samples of the window are samples of the confirmed level. -/
def SettledBeyond {n : Nat} (k : Nat) (r : Regs n) : Prop :=
  ∀ i, k ≤ i → i < n → r.win.getLsbD i = r.conf

theorem settledBeyond_zero_of_fill {n : Nat} {r : Regs n} (h : r.win = fill n r.conf) :
    SettledBeyond 0 r :=
  fun i _ hi => (eq_fill_iff _ _).1 h i hi

theorem SettledBeyond.mono {n j k : Nat} {r : Regs n} (h : SettledBeyond j r) (hjk : j ≤ k) :
    SettledBeyond k r :=
  fun i hki hi => h i (hjk.trans hki) hi

/-- While an old sample of the confirmed level stays in the window, a poll reports nothing. -/
theorem SettledBeyond.sample {n k : Nat} {r : Regs n} (h : SettledBeyond k r) (hk : k + 1 < n)
    (d : Bool) :
    (regsSample d r).evt = eventCode .none ∧ SettledBeyond (k + 1) (regsSample d r) := by
  have hne : shiftIn r.win d ≠ fill n (!r.conf) := by
    intro hfill
    obtain ⟨-, hold⟩ := (shiftIn_eq_fill_iff _ _ _ (by omega)).1 hfill
    have hflip := (h k le_rfl (by omega)).symm.trans (hold k hk)
    simp at hflip
  rw [regsSample_quiet r d hne]
  refine ⟨rfl, fun i hki hi => ?_⟩
  rw [shiftIn_bit _ _ _ hi, if_neg (by omega)]
  exact h (i - 1) (by omega) (by omega)

/-- Fewer polls than old samples of the confirmed level report nothing, whatever stands between them:
a `RESET` fills the window with its level again. -/
theorem regCodes_settledBeyond (cfg : Config) (is : List Instr) (k : Nat) (r : Regs cfg.depth)
    (h : SettledBeyond k r) (hk : k + pollCount is < cfg.depth) :
    ∀ c ∈ regCodes cfg is r, c = eventCode .none := by
  induction is generalizing k r with
  | nil => simp
  | cons i is ih =>
    cases i with
    | reset =>
      exact ih k _ ((settledBeyond_zero_of_fill (regsReset_win cfg)).mono (Nat.zero_le k)) hk
    | idle => exact ih k (regsIdle r) h hk
    | sample d =>
      have hpolls : pollCount (.sample d :: is) = pollCount is + 1 := List.countP_cons_of_pos rfl
      obtain ⟨hevt, hnext⟩ := h.sample (by omega) d
      rw [regCodes_sample, List.forall_mem_cons]
      exact ⟨hevt, ih (k + 1) _ hnext (by omega)⟩

theorem eventCodes_eq_nil_of_full_window {s : State} {is : List Instr}
    (hwin : s.regs.win = fill s.cfg.depth s.regs.conf) (hpolls : pollCount is < s.cfg.depth) :
    eventCodes is s = [] :=
  (eventCodes_eq_nil_iff is s).2
    (regCodes_settledBeyond s.cfg is 0 s.regs (settledBeyond_zero_of_fill hwin) (by omega))

/-- What an event tells of the registers it leaves. -/
theorem regsSample_of_event {n : Nat} (hn : 1 ≤ n) {r : Regs n} {d : Bool}
    (h : (regsSample d r).evt ≠ eventCode .none) :
    (regsSample d r).win = fill n d ∧ (regsSample d r).conf = d := by
  rcases regsSample_cases r d with ⟨hfill, hconf, -⟩ | ⟨-, -, hevt⟩
  · obtain ⟨rfl, -⟩ := (shiftIn_eq_fill_iff _ _ _ hn).1 hfill
    exact ⟨hfill, hconf⟩
  · exact absurd hevt h

/-- Settles O42: an event leaves a full window, from which fewer than N polls cannot confirm the other
value; the next event changes the level. -/
theorem eventsAreAtLeastNPollsApart : Obligations.EventsAreAtLeastNPollsApart := by
  refine fun s d => ⟨_, exec_eq _ s, fun hevt => ?_⟩
  obtain ⟨hwin, hconf⟩ := regsSample_of_event s.cfg.depth_pos hevt
  refine ⟨hwin, hconf, fun is hpolls => ?quiet, fun is e hf he => ?next⟩
  case quiet => exact eventCodes_eq_nil_of_full_window (hwin.trans (congrArg _ hconf.symm)) hpolls
  case next =>
    rw [eventCodes_head?] at he
    rw [← hconf]
    exact regCodes_first_event s.cfg is _ e hf he

/-! ### `SAMPLE` (40_operations.md R52) -/

theorem decode_of_no_rst_en {c : Ctl} (hrst : c.getLsbD 2 = false) (hen : c.getLsbD 1 = true) :
    decode c = .sample (c.getLsbD 0) := by
  rw [decode, hrst, hen]
  rfl

/-- Settles O18: each corner case from the lemma on one poll, or on a run after `RESET`, that says it. -/
theorem sampleFollowsThePseudocode : Obligations.SampleFollowsThePseudocode := by
  refine ⟨fun _ => decode_of_no_rst_en, fun d s w hw => ?transfer,
    fun d s hn => ⟨_, exec_eq _ s, ?depthOne⟩, fun d s hwin hconf => ?settled,
    fun d s hn hwin hconf => ⟨_, exec_eq _ s, ?hysteresis⟩,
    fun d s => ⟨_, exec_eq _ s, regsSample_evt_ne_eventTo_conf s.regs d⟩, rfl,
    fun s is hinit hf => ⟨fun he => ?firstEvent, fun hpolls => ?firstPolls⟩,
    fun _ => ones_ne_zeros, rfl⟩
  case transfer =>
    subst hw
    rw [exec_eq, opRegs_sample, regsSample_eq_ite]
    rfl
  case depthOne =>
    have hconf := regsSample_conf_of_depth_one hn s.regs d
    have hevt := regsSample_evt_ne_none_iff s.regs d
    rw [hconf] at hevt
    exact ⟨hconf, hevt⟩
  case settled =>
    rw [exec_eq, opRegs_sample, regsSample_settled s.cfg.depth_pos hwin hconf]
    rfl
  case hysteresis =>
    have hne (b : Bool) : shiftIn s.regs.win d ≠ fill s.cfg.depth b :=
      hwin ▸ shiftIn_fill_not_ne_fill hn d b
    refine ⟨?_, by rw [writeRegs_regs, opRegs_sample, regsSample_quiet _ _ (hne _)]⟩
    exact Bool.eq_false_iff.2 fun hfull => hne _ ((unanimous_iff _ s.cfg.depth_pos).1 hfull)
  case firstEvent =>
    rw [eventCodes_reset_cons, eventCodes_head?] at he
    have hfirst := regCodes_first_event s.cfg is _ _ hf he
    rw [writeRegs_regs, regsReset_conf, hinit] at hfirst
    exact absurd hfirst (by decide)
  case firstPolls =>
    rw [eventCodes_reset_cons]
    exact eventCodes_eq_nil_of_full_window rfl hpolls

/-! ### The closed form of the level (40_operations.md R54) -/

theorem resetFree_append_sample {is : List Instr} (hf : ResetFree is) (d : Bool) :
    ResetFree (is ++ [.sample d]) := by
  simpa [ResetFree] using hf

theorem samplesOf_append (a b : List Instr) : samplesOf (a ++ b) = samplesOf a ++ samplesOf b := by
  induction a with
  | nil => rfl
  | cons i is ih => cases i <;> simp [samplesOf, ih]

/-- A poll since a `RESET` fills the window when the last N samples, the fill included, are equal. -/
theorem shiftIn_runRegs_eq_fill_iff (cfg : Config) {is : List Instr} (hf : ResetFree is) (d : Bool) :
    shiftIn (runRegs cfg is (regsReset cfg)).win d = fill cfg.depth d ↔
      ∀ i, i < cfg.depth → sampleBack cfg.init (samplesOf is ++ [d]) i = d := by
  have hrun : shiftIn (runRegs cfg is (regsReset cfg)).win d =
      (runRegs cfg (is ++ [.sample d]) (regsReset cfg)).win := by
    rw [runRegs_append]
    rfl
  have hsamples : samplesOf (is ++ [.sample d]) = samplesOf is ++ [d] := samplesOf_append ..
  rw [eq_fill_iff, hrun]
  refine forall₂_congr fun i hi => ?_
  rw [runRegs_regsReset_win_bit cfg _ (resetFree_append_sample hf d) i hi, hsamples]

/-- Settles O38: the window is the last N samples, and a poll confirms the value that fills it. -/
theorem closedFormOfTheLevel : Obligations.ClosedFormOfTheLevel := by
  refine fun s => ⟨⟨_, exec_eq .reset s, rfl⟩, fun is d hf => ?_⟩
  have hfill := shiftIn_runRegs_eq_fill_iff s.cfg hf d
  have hconf := regsSample_conf s.cfg.depth_pos (runRegs s.cfg is (regsReset s.cfg)) d
  exact ⟨_, _, runOps_eq _ s, exec_eq _ _, fun hfull => hconf.trans (if_pos (hfill.2 hfull)),
    fun hmixed => hconf.trans (if_neg fun h => hmixed (hfill.1 h)), regsSample_evt _ d⟩

/-! ### Samples of the confirmed level (40_operations.md R57) -/

/-- The samples of a run of one value, one operation at a time: its head is such a sample. -/
theorem samplesOf_sample_eq_replicate {d v : Bool} {is : List Instr} {m : Nat}
    (h : samplesOf (.sample d :: is) = List.replicate m v) :
    d = v ∧ ∃ k, m = k + 1 ∧ samplesOf is = List.replicate k v := by
  cases m with
  | zero => nomatch h
  | succ k =>
    obtain ⟨hd, hrest⟩ := List.cons.inj h
    exact ⟨hd, k, rfl, hrest⟩

/-- Polls of the confirmed level report nothing, whatever the window held. -/
theorem regCodes_confirmed (cfg : Config) {v : Bool} (is : List Instr) (m : Nat)
    (r : Regs cfg.depth) (hconf : r.conf = v) (hf : ResetFree is)
    (hs : samplesOf is = List.replicate m v) :
    regCodes cfg is r = List.replicate m (eventCode .none) := by
  induction is generalizing m r with
  | nil =>
    obtain rfl := (List.replicate_eq_nil_iff v).1 hs.symm
    rfl
  | cons i is ih =>
    obtain ⟨hi, hfree⟩ := resetFree_cons.1 hf
    cases i with
    | reset => exact absurd rfl hi
    | idle => exact ih m (regsIdle r) hconf hfree hs
    | sample d =>
      obtain ⟨rfl, k, rfl, hrest⟩ := samplesOf_sample_eq_replicate hs
      subst hconf
      rw [regCodes_sample, regsSample_confirmed cfg.depth_pos, List.replicate_succ]
      exact congrArg _ (ih k _ rfl hfree hrest)

/-- Settles O41: a sample of the level into a full window writes what a second one writes; and no sample
of the level is an event. -/
theorem confirmedSamplesChangeNothing : Obligations.ConfirmedSamplesChangeNothing := by
  refine fun s v hconf => ⟨fun hwin k => ?settled, fun k => ?noEvent⟩
  case settled =>
    have honce := regsSample_settled s.cfg.depth_pos hwin hconf
    have htwice : regsSample v (regsSample v s.regs) = regsSample v s.regs := by
      rw [honce]
      exact regsSample_settled s.cfg.depth_pos hwin hconf
    rw [runOps_replicate_succ_of_idempotent (i := .sample v) htwice, exec_eq, opRegs_sample, honce]
    rfl
  case noEvent =>
    rw [eventCodes_eq_nil_iff, regCodes_confirmed s.cfg _ k s.regs hconf
      (resetFree_replicate_sample k v) (samplesOf_replicate_sample k v)]
    exact fun _ => List.eq_of_mem_replicate

/-! ### A run of samples of the other value (40_operations.md R59) -/

/-- The `j` newest samples are of `v`, and the one before them is not. -/
def EndsInRun {n : Nat} (j : Nat) (v : Bool) (w : BitVec n) : Prop :=
  (∀ i, i < j → w.getLsbD i = v) ∧ w.getLsbD j = !v

theorem EndsInRun.sample {n j : Nat} {v : Bool} {w : BitVec n} (h : EndsInRun j v w)
    (hj : j + 1 < n) : EndsInRun (j + 1) v (shiftIn w v) := by
  obtain ⟨hrun, hend⟩ := h
  refine ⟨fun i hi => ?_, by rw [shiftIn_bit _ _ _ hj]; exact hend⟩
  rw [shiftIn_bit _ _ _ (by omega)]
  split
  · rfl
  · exact hrun (i - 1) (by omega)

/-- One sample more fills the window exactly when the run was one short of N. -/
theorem EndsInRun.fills_iff {n j : Nat} {v : Bool} {w : BitVec n} (h : EndsInRun j v w)
    (hj : j < n) : shiftIn w v = fill n v ↔ j + 1 = n := by
  obtain ⟨hrun, hend⟩ := h
  rw [shiftIn_eq_fill_iff _ _ _ (by omega)]
  constructor
  · rintro ⟨-, hold⟩
    by_contra hne
    have hflip := (hold j (by omega)).symm.trans hend
    simp at hflip
  · rintro rfl
    exact ⟨rfl, fun i hi => hrun i (by omega)⟩

theorem runReports_zero {n : Nat} (hn : 1 ≤ n) (v : Bool) : runReports n 0 v = [] := by
  rw [runReports, if_neg (by omega), List.replicate_zero]

theorem runReports_one (m : Nat) (v : Bool) :
    runReports 1 (m + 1) v = eventCode (eventTo v) :: List.replicate m (eventCode .none) := by
  simp [runReports]

/-- The first of N samples, N at least 2, reports nothing; the rest is a run one sample shorter. -/
theorem runReports_succ {n : Nat} (hn : 1 ≤ n) (m : Nat) (v : Bool) :
    runReports (n + 1) (m + 1) v = eventCode .none :: runReports n m v := by
  obtain ⟨n, rfl⟩ := Nat.exists_eq_add_of_le' hn
  by_cases h : n + 1 ≤ m <;> simp [runReports, h, List.replicate_succ]

/-- By induction on the operations: `j` samples of the run are in the window, `k` are missing. -/
theorem regCodes_run (cfg : Config) {v : Bool} (is : List Instr) (j k m : Nat) (r : Regs cfg.depth)
    (hk : 1 ≤ k) (hjk : j + k = cfg.depth) (hconf : r.conf = !v) (hrun : EndsInRun j v r.win)
    (hf : ResetFree is) (hs : samplesOf is = List.replicate m v) :
    regCodes cfg is r = runReports k m v := by
  induction is generalizing j k m r with
  | nil =>
    obtain rfl := (List.replicate_eq_nil_iff v).1 hs.symm
    exact (runReports_zero hk v).symm
  | cons i is ih =>
    obtain ⟨hi, hfree⟩ := resetFree_cons.1 hf
    cases i with
    | reset => exact absurd rfl hi
    | idle => exact ih j k m (regsIdle r) hk hjk hconf hrun hfree hs
    | sample d =>
      obtain ⟨rfl, m, rfl, hrest⟩ := samplesOf_sample_eq_replicate hs
      have hother : (!r.conf) = d := by rw [hconf, Bool.not_not]
      have hfill := hrun.fills_iff (by omega)
      rw [regCodes_sample]
      by_cases hlast : k = 1
      · have hfull : shiftIn r.win d = fill cfg.depth (!r.conf) := by
          rw [hother, hfill]
          omega
        rw [regsSample_event r d hfull, hlast, runReports_one, hother]
        exact congrArg _ (regCodes_confirmed cfg is m _ rfl hfree hrest)
      · obtain ⟨k, rfl⟩ := Nat.exists_eq_add_of_le' hk
        have hne : shiftIn r.win d ≠ fill cfg.depth (!r.conf) := by
          rw [hother, Ne, hfill]
          omega
        rw [regsSample_quiet r d hne, runReports_succ (by omega)]
        exact congrArg _ (ih (j + 1) k m _ (by omega) (by omega) hconf (hrun.sample (by omega))
          hfree hrest)

/-- A run of `m` samples of `v` from a start with `not v` confirmed and sampled last. -/
theorem regCodes_eq_runReports (cfg : Config) {v : Bool} {is : List Instr} {m : Nat}
    {r : Regs cfg.depth} (hconf : r.conf = !v) (hlast : r.win.getLsbD 0 = !v) (hf : ResetFree is)
    (hs : samplesOf is = List.replicate m v) :
    regCodes cfg is r = runReports cfg.depth m v :=
  regCodes_run cfg is 0 cfg.depth m r cfg.depth_pos (Nat.zero_add _) hconf
    ⟨fun _ hi => absurd hi (Nat.not_lt_zero _), hlast⟩ hf hs

/-- Settles O43: the run fills the window at its N-th sample; `RESET` is such a start. -/
theorem runIsConfirmedAtItsNthSample : Obligations.RunIsConfirmedAtItsNthSample := by
  refine ⟨fun s v is m hconf hlast hf hs => ?anyStart, fun s is m hf hs => ?reset⟩
  case anyStart => exact (pollCodes_eq is s).trans (regCodes_eq_runReports s.cfg hconf hlast hf hs)
  case reset =>
    rw [pollCodes_eq, regCodes_reset]
    refine regCodes_eq_runReports s.cfg ?_ ?_ hf hs
    · rw [regsReset_conf, Bool.not_not]
    · rw [regsReset_win_bit s.cfg 0 s.cfg.depth_pos, Bool.not_not]

/-! ### Pairs (40_operations.md R60, R61, R63) -/

/-- With equal `INIT` the short fill is the newest part of the long one. -/
theorem regsReset_win_setWidth {cfgS cfgL : Config} (hdepth : cfgS.depth ≤ cfgL.depth)
    (hinit : cfgS.init = cfgL.init) :
    (regsReset cfgS).win = (regsReset cfgL).win.setWidth cfgS.depth := by
  rw [regsReset_win, regsReset_win, hinit, setWidth_fill _ hdepth]

/-- Both windows of a pair take the same samples, and the same fill at a `RESET`. -/
theorem opRegs_win_setWidth {cfgS cfgL : Config} (hdepth : cfgS.depth ≤ cfgL.depth)
    (hinit : cfgS.init = cfgL.init) (i : Instr) {r : Regs cfgS.depth} {l : Regs cfgL.depth}
    (h : r.win = l.win.setWidth cfgS.depth) :
    (opRegs cfgS i r).win = (opRegs cfgL i l).win.setWidth cfgS.depth := by
  cases i with
  | reset => exact regsReset_win_setWidth hdepth hinit
  | sample d =>
    rw [opRegs_sample, opRegs_sample, regsSample_win, regsSample_win, h, setWidth_shiftIn _ _ hdepth]
  | idle => exact h

/-- When the long window fills up, the short one was full already, and its level was confirmed. -/
theorem regsSample_not_both_events {n m : Nat} (hn : 1 ≤ n) (hnm : n < m) {r : Regs n} {l : Regs m}
    (hagree : WindowAgrees r) (hwin : r.win = l.win.setWidth n) (d : Bool) :
    (regsSample d r).evt = eventCode .none ∨ (regsSample d l).evt = eventCode .none := by
  rcases regsSample_cases l d with ⟨hfill, -, -⟩ | ⟨-, -, hevt⟩
  · obtain ⟨rfl, hold⟩ := (shiftIn_eq_fill_iff _ _ _ (by omega)).1 hfill
    have hfull : r.win = fill n (!l.conf) := by
      rw [eq_fill_iff, hwin]
      intro i hi
      rw [BitVec.getLsbD_setWidth, hold i (by omega)]
      simp [hi]
    have hconf : r.conf = !l.conf := by
      rw [windowAgrees_iff hn, hfull, Ne, fill_inj hn, Bool.eq_not, not_not] at hagree
      exact hagree.symm
    exact Or.inl (by rw [regsSample_settled hn hfull hconf])
  · exact Or.inr hevt

/-- By induction on the operations, from any registers whose windows belong together. -/
theorem regCodes_zip_not_both_events {cfgS cfgL : Config} (hdepth : cfgS.depth < cfgL.depth)
    (hinit : cfgS.init = cfgL.init) (is : List Instr) {r : Regs cfgS.depth} {l : Regs cfgL.depth}
    (hagree : WindowAgrees r) (hwin : r.win = l.win.setWidth cfgS.depth) :
    ∀ c ∈ (regCodes cfgS is r).zip (regCodes cfgL is l),
      c.1 = eventCode .none ∨ c.2 = eventCode .none := by
  induction is generalizing r l with
  | nil => simp
  | cons i is ih =>
    have hrest := ih (opRegs_windowAgrees cfgS i r hagree)
      (opRegs_win_setWidth hdepth.le hinit i hwin)
    cases i with
    | reset => exact hrest
    | idle => exact hrest
    | sample d =>
      rw [regCodes_sample, regCodes_sample, List.zip_cons_cons, List.forall_mem_cons]
      exact ⟨regsSample_not_both_events cfgS.depth_pos hdepth hagree hwin d, hrest⟩

/-- Settles O49: a common `RESET` makes the short window the newest part of the long one, so the long
one fills up only after the short one did. -/
theorem pairNeverReportsTwoEvents : Obligations.PairNeverReportsTwoEvents := by
  rintro p is ⟨hdepth, hinit⟩
  rw [pairPollCodes_eq, regCodes_reset, regCodes_reset]
  exact regCodes_zip_not_both_events hdepth hinit is (regsReset_windowAgrees p.short.cfg)
    (regsReset_win_setWidth hdepth.le hinit)

/-- The reports of each member of a pair: one code a poll, so both lists are whole. -/
theorem pairPollCodes_map (is : List Instr) (p : Pair) :
    (pairPollCodes is p).map Prod.fst = regCodes p.short.cfg is p.short.regs ∧
      (pairPollCodes is p).map Prod.snd = regCodes p.long.cfg is p.long.regs := by
  rw [pairPollCodes_eq]
  exact ⟨List.map_fst_zip (by simp only [regCodes_length, le_refl]),
    List.map_snd_zip (by simp only [regCodes_length, le_refl])⟩

theorem eventTo_code_mem_runReports_iff (n m : Nat) (v : Bool) :
    eventCode (eventTo v) ∈ runReports n m v ↔ n ≤ m := by
  by_cases h : n ≤ m <;> simp [runReports, h, eventTo_code_ne]

theorem runReports_getElem? {n m : Nat} (h : n ≤ m) (v : Bool) :
    (runReports n m v)[n - 1]? = some (eventCode (eventTo v)) := by
  simp [runReports, h]

theorem count_eventTo_code_runReports {n m : Nat} (h : n ≤ m) (v : Bool) :
    (runReports n m v).count (eventCode (eventTo v)) = 1 := by
  simp [runReports, h, List.count_replicate, (eventTo_code_ne v).symm]

theorem rise_mem_runReports_iff (n m : Nat) : eventCode .rise ∈ runReports n m true ↔ n ≤ m :=
  eventTo_code_mem_runReports_iff n m true

/-- Settles O53: each member reports the run at its own depth, 2 and 16 for the firmware's pair. -/
theorem tapAndHoldAreTold : Obligations.TapAndHoldAreTold := by
  have hshort : Pair.firmware.short.cfg.depth = 2 := rfl
  have hlong : Pair.firmware.long.cfg.depth = 16 := rfl
  refine ⟨fun p v is m _ hconfS hconfL hlastS hlastL hf hs => ?run,
    fun n m v _ => ⟨eventTo_code_mem_runReports_iff n m v,
      fun h => ⟨runReports_getElem? h v, count_eventTo_code_runReports h v⟩⟩,
    fun m => ?tap, fun m => ?hold⟩
  case run =>
    obtain ⟨hfst, hsnd⟩ := pairPollCodes_map is p
    exact ⟨hfst.trans (regCodes_eq_runReports p.short.cfg hconfS hlastS hf hs),
      hsnd.trans (regCodes_eq_runReports p.long.cfg hconfL hlastL hf hs)⟩
  all_goals rw [rise_mem_runReports_iff, rise_mem_runReports_iff, hshort, hlong]; omega

end Sys2Proof.Machine

/-! ## Proofs of the family 60_exceptions.md: conflicting conditions and the stops of the model -/

namespace Sys2Proof.Machine

/-! ### Several conditions at one edge (60_exceptions.md R71) -/

/-- Settles O8: the operation of an edge read from its levels, at the four values of `rst` and `en`. -/
theorem resetDominatesEnable : Obligations.ResetDominatesEnable := by
  intro s d rest
  have hstep (r e : Bool) := step_inputs_pinsOfBits s r e d rest
  exact ⟨hstep true true, hstep true false, hstep false true, hstep false false⟩

/-! ### Outcomes that are no hardware states (60_exceptions.md R67, R83) -/

/-- The first `RESET` overwrites every free value of power-up: what it writes is `Regs.atReset`. -/
theorem runFromPowerUp_reset (cfg : Config) (k : Draws) (is : List Instr) :
    runFromPowerUp cfg k (.reset :: is) =
      runOps is { powerUp cfg k with regs := Regs.atReset cfg } :=
  runOps_cons .reset is (powerUp cfg k)

/-- Settles O36: the two refusals stand in the definitions, a first `RESET` overwrites the power-up
registers, and reading `0b11` is a fault on one instance and on any member of a system. -/
theorem threeModelOutcomes : Obligations.ThreeModelOutcomes :=
  ⟨configure_zero, fun _ _ _ _ => rfl, fun _ _ _ => rfl, runFromPowerUp_reset, outputs_reserved,
    freshEventsFrom_reserved 0⟩

end Sys2Proof.Machine

/-! ## Proofs of the family 70_reset_and_hazards.md: the outputs after reset, and startup -/

namespace Sys2Proof.Machine

/-! ### A level held from startup (70_reset_and_hazards.md R85) -/

/-- R85 is R59 for the start that `RESET` makes: `INIT` confirmed, and the window full of it. -/
theorem pollCodes_reset_samples_not_init (s : State) (m : Nat) :
    pollCodes (.reset :: List.replicate m (.sample (!s.cfg.init))) s =
      runReports s.cfg.depth m (!s.cfg.init) := by
  obtain ⟨-, hreset⟩ := runIsConfirmedAtItsNthSample
  exact hreset s _ m (resetFree_replicate_sample m _) (samplesOf_replicate_sample m _)

theorem runReports_self (n : Nat) (v : Bool) :
    runReports n n v = List.replicate (n - 1) (eventCode .none) ++ [eventCode (eventTo v)] := by
  rw [runReports, if_pos le_rfl, Nat.sub_self, List.replicate_zero]

/-- The first N polls of such a start: the event is the N-th report. -/
theorem pollCodes_reset_depth_samples_not_init (s : State) :
    pollCodes (.reset :: List.replicate s.cfg.depth (.sample (!s.cfg.init))) s =
      List.replicate (s.cfg.depth - 1) (eventCode .none) ++ [eventCode (eventTo (!s.cfg.init))] := by
  rw [pollCodes_reset_samples_not_init, runReports_self]

/-- Settles O45: the run that starts at `RESET`, and its first N polls at the firmware's depths 2, 16
and 16. -/
theorem startupLevelIsConfirmedAtPollN : Obligations.StartupLevelIsConfirmedAtPollN :=
  ⟨pollCodes_reset_samples_not_init,
    pollCodes_reset_depth_samples_not_init (State.resetOf Config.pwrShort 0),
    pollCodes_reset_depth_samples_not_init (State.resetOf Config.pwrLong 0),
    pollCodes_reset_depth_samples_not_init (State.resetOf Config.rstLong 0)⟩

/-! ### The outputs after `RESET` (70_reset_and_hazards.md R81) -/

/-- The outputs of an instance whose `EVT` holds the code of `e`. -/
theorem outputs_of_eventCode {s : State} {e : Event} (h : s.regs.evt = eventCode e) :
    outputs s = .ok { level := s.regs.conf, edge := e, valid := s.regs.valid,
                      riseP := portRiseP s.regs, fallP := portFallP s.regs, win := portWin s } := by
  have hedge : portEdge s.regs = .ok e := by
    rw [portEdge, h, eventOfCode_code]
  rw [outputs, hedge]

/-- The reset state shows `INIT`, no event and no pulse. -/
theorem outputs_atReset (s : State) :
    outputs { s with regs := Regs.atReset s.cfg } =
      .ok { level := s.cfg.init, edge := .none, valid := false, riseP := false, fallP := false,
            win := if s.cfg.exposeWin then some (fill s.cfg.depth s.cfg.init) else none } :=
  outputs_of_eventCode (s := { s with regs := Regs.atReset s.cfg }) rfl

/-- A stopped clock keeps the state (60_exceptions.md R79, log entry 2). -/
theorem step_of_no_inputs {s : State} (h : s.inputs = []) : step s = .next s := by
  rw [step_eq, h]

/-- Settles O33: `RESET` writes the reset values, the ports show them, and without an edge they stay. -/
theorem outputsAfterReset : Obligations.OutputsAfterReset :=
  fun s => ⟨exec_eq .reset s, outputs_atReset s, fun hin => step_of_no_inputs hin⟩

end Sys2Proof.Machine

/-! ## Proofs of the family 'other': invariants, and the counter circuit -/

namespace Sys2Proof.Machine

/-! ### The invariant of an instance (10_state.md R17, R25) -/

section EventAgrees

variable {n : Nat}

/-- The two event clauses as one, in terms of the level an event confirms. -/
theorem eventAgrees_iff (r : Regs n) :
    EventAgrees r ↔
      r.evt ≠ 0b11#2 ∧ ∀ v, r.evt = eventCode (eventTo v) → r.win = fill n v ∧ r.conf = v :=
  and_congr_right fun _ => ⟨fun ⟨hrise, hfall⟩ => Bool.forall_bool.2 ⟨hfall, hrise⟩,
    fun h => ⟨h true, h false⟩⟩

theorem eventAgrees_of_none {r : Regs n} (h : r.evt = eventCode .none) : EventAgrees r := by
  rw [eventAgrees_iff, h]
  exact ⟨eventCode_ne_reserved .none, fun v hv => absurd hv.symm (eventTo_code_ne v)⟩

/-- A poll brings `EVT` into agreement, whatever it was: an event it reports is to the value it finds
the window full of. -/
theorem regsSample_eventAgrees (r : Regs n) (d : Bool) : EventAgrees (regsSample d r) := by
  rcases regsSample_cases r d with ⟨hfill, hconf, hevt⟩ | ⟨-, -, hevt⟩
  · refine (eventAgrees_iff _).2 ⟨eventCode_ne_reserved _, fun v hv => ?_⟩
    obtain rfl := eventTo_code_inj (hevt.symm.trans hv)
    exact ⟨hfill, hconf⟩
  · exact eventAgrees_of_none hevt

end EventAgrees

theorem opRegs_eventAgrees (cfg : Config) (i : Instr) (r : Regs cfg.depth) (h : EventAgrees r) :
    EventAgrees (opRegs cfg i r) := by
  cases i with
  | reset => exact eventAgrees_of_none (regsReset_evt cfg)
  | sample d => exact regsSample_eventAgrees r d
  | idle => exact h

/-- The invariant speaks of the registers only, so this serves any drive and any draws. -/
theorem inv_writeRegs_opRegs (i : Instr) {s : State} (h : s.Inv) :
    (writeRegs s (opRegs s.cfg i s.regs)).Inv := by
  obtain ⟨hwin, hevt⟩ := h
  exact ⟨opRegs_windowAgrees s.cfg i s.regs hwin, opRegs_eventAgrees s.cfg i s.regs hevt⟩

theorem inv_writeRegs_regsReset (s : State) : (writeRegs s (regsReset s.cfg)).Inv :=
  ⟨regsReset_windowAgrees s.cfg, eventAgrees_of_none (regsReset_evt s.cfg)⟩

/-- Settles O26: a step keeps the registers or performs one operation on them. -/
theorem stepKeepsTheInvariant : Obligations.StepKeepsTheInvariant := by
  intro s t hs hstep
  rcases step_cases hstep with rfl | ⟨i, ins, k, rfl⟩
  · exact hs
  · exact inv_writeRegs_opRegs i hs

/-- Settles O25: the reset registers are those a `RESET` writes. -/
theorem invariantHoldsAtReset : Obligations.InvariantHoldsAtReset :=
  ⟨inv_writeRegs_regsReset State.reset, fun cfg k => inv_writeRegs_regsReset (State.resetOf cfg k)⟩

/-! ### The invariant of a pair (40_operations.md R60, R61) -/

/-- Settles O51: each member keeps its own invariant, and both windows take the same samples. -/
theorem pairKeepsItsInvariant : Obligations.PairKeepsItsInvariant := by
  refine ⟨fun p ⟨hdepth, hinit⟩ => ⟨_, execPair_eq .reset p, ?reset⟩, fun i p q hp hexec => ?kept⟩
  case reset =>
    exact ⟨⟨hdepth, hinit⟩, inv_writeRegs_regsReset p.short, inv_writeRegs_regsReset p.long,
      regsReset_win_setWidth hdepth.le hinit⟩
  case kept =>
    obtain ⟨⟨hdepth, hinit⟩, hshort, hlong, hwin⟩ := hp
    rw [execPair_eq] at hexec
    obtain rfl := Host.Outcome.next.inj hexec
    exact ⟨⟨hdepth, hinit⟩, inv_writeRegs_opRegs i hshort, inv_writeRegs_opRegs i hlong,
      opRegs_win_setWidth hdepth.le hinit i hwin⟩

/-! ### The run-length counter (40_operations.md R53, log entry 12) -/

/-- The counter is the length of the run of equal samples at the new end of the window. -/
def CountsRun {n : Nat} (w : BitVec n) (q : RunRegs) : Prop :=
  1 ≤ q.run ∧ q.run ≤ n ∧ (∀ i, i < q.run → w.getLsbD i = q.last) ∧
  (q.run < n → w.getLsbD q.run = !q.last)

theorem counterAgrees_iff {n : Nat} (r : Regs n) (q : RunRegs) :
    CounterAgrees r q ↔ SamePorts r q ∧ CountsRun r.win q := Iff.rfl

/-- The pulses are functions of `EVT` and `VALID`, so three registers decide all the ports. -/
theorem samePorts_of_regs {n : Nat} {r : Regs n} {q : RunRegs} (hconf : r.conf = q.conf)
    (hevt : r.evt = q.evt) (hvalid : r.valid = q.valid) : SamePorts r q := by
  refine ⟨hconf, hevt, hvalid, ?_, ?_⟩
  · rw [portRiseP, hevt, hvalid]
    rfl
  · rw [portFallP, hevt, hvalid]
    rfl

/-- The window is full of its newest sample exactly when the counter stands at N. -/
theorem CountsRun.fill_iff {n : Nat} {w : BitVec n} {q : RunRegs} (h : CountsRun w q) :
    w = fill n q.last ↔ n ≤ q.run := by
  obtain ⟨-, -, hrun, hend⟩ := h
  rw [eq_fill_iff]
  constructor
  · intro hfull
    by_contra hlt
    have hflip := (hfull q.run (by omega)).symm.trans (hend (by omega))
    simp at hflip
  · exact fun hle i hi => hrun i (by omega)

theorem countsRun_runReset (cfg : Config) : CountsRun (regsReset cfg).win (runReset cfg) :=
  ⟨cfg.depth_pos, le_rfl, fun i hi => regsReset_win_bit cfg i hi, fun hlt => absurd hlt (lt_irrefl _)⟩

/-- A sample equal to the last one makes the run longer, up to N. -/
theorem CountsRun.sample_last {n : Nat} {w : BitVec n} {q : RunRegs} (h : CountsRun w q) :
    CountsRun (shiftIn w q.last) (runSample n q.last q) := by
  obtain ⟨hpos, hle, hrun, hend⟩ := h
  have hlen : (runSample n q.last q).run = min n (q.run + 1) := if_pos rfl
  refine ⟨by omega, by omega, fun i hi => ?_, fun hlt => ?_⟩
  · rw [shiftIn_bit _ _ _ (by omega)]
    split
    · rfl
    · exact hrun (i - 1) (by omega)
  · have hlen' : (runSample n q.last q).run = q.run + 1 := by omega
    rw [hlen', shiftIn_bit _ _ _ (by omega)]
    exact hend (by omega)

/-- A sample of the other value begins a run of length 1. -/
theorem CountsRun.sample_other {n : Nat} {w : BitVec n} {q : RunRegs} (h : CountsRun w q) {d : Bool}
    (hd : d ≠ q.last) : CountsRun (shiftIn w d) (runSample n d q) := by
  obtain ⟨hpos, hle, hrun, -⟩ := h
  have hlen : (runSample n d q).run = 1 := if_neg hd
  refine ⟨by omega, by omega, fun i hi => ?_, fun hlt => ?_⟩
  · obtain rfl : i = 0 := by omega
    exact shiftIn_newest w d (by omega)
  · rw [hlen, shiftIn_bit _ _ _ (by omega)]
    exact (hrun 0 (by omega)).trans (Bool.eq_not_of_ne hd.symm)

theorem CountsRun.sample {n : Nat} {w : BitVec n} {q : RunRegs} (h : CountsRun w q) (d : Bool) :
    CountsRun (shiftIn w d) (runSample n d q) := by
  by_cases hd : d = q.last
  · exact hd ▸ h.sample_last
  · exact h.sample_other hd

/-- A poll reports the event to the value it leaves the window full of, if that was not confirmed. -/
theorem regsSample_evt_eq_ite_fill {n : Nat} (hn : 1 ≤ n) (r : Regs n) (d : Bool) :
    (regsSample d r).evt =
      if shiftIn r.win d = fill n d ∧ r.conf ≠ d then eventCode (eventTo d)
      else eventCode .none := by
  rcases regsSample_cases r d with ⟨hfill, -, hevt⟩ | ⟨hne, -, hevt⟩
  · obtain ⟨rfl, -⟩ := (shiftIn_eq_fill_iff _ _ _ hn).1 hfill
    rw [if_pos ⟨hfill, (Bool.not_ne_self _).symm⟩, hevt]
  · rw [hevt, if_neg]
    rintro ⟨hfull, hconf⟩
    exact hne (Bool.eq_not_of_ne hconf.symm ▸ hfull)

/-- The counter reaches N at the poll that fills the window, so both circuits confirm the same. -/
theorem CounterAgrees.sample {n : Nat} (hn : 1 ≤ n) {r : Regs n} {q : RunRegs}
    (h : CounterAgrees r q) (d : Bool) : CounterAgrees (regsSample d r) (runSample n d q) := by
  obtain ⟨⟨hconf, -⟩, hcount⟩ := (counterAgrees_iff r q).1 h
  have hnext := hcount.sample d
  have hfull : shiftIn r.win d = fill n d ↔ n ≤ runLength n d q := hnext.fill_iff
  refine (counterAgrees_iff _ _).2 ⟨samePorts_of_regs ?conf ?evt rfl, hnext⟩
  case conf => simp only [regsSample_conf hn, runSample, hfull, hconf]
  case evt => simp only [regsSample_evt_eq_ite_fill hn, runSample, hfull, hconf]

theorem counterAgrees_runReset (cfg : Config) : CounterAgrees (regsReset cfg) (runReset cfg) :=
  (counterAgrees_iff _ _).2 ⟨samePorts_of_regs rfl rfl rfl, countsRun_runReset cfg⟩

theorem CounterAgrees.opRegs {cfg : Config} {r : Regs cfg.depth} {q : RunRegs}
    (h : CounterAgrees r q) (i : Instr) : CounterAgrees (opRegs cfg i r) (runExec cfg i q) := by
  cases i with
  | reset => exact counterAgrees_runReset cfg
  | sample d => exact h.sample cfg.depth_pos d
  | idle =>
    obtain ⟨⟨hconf, hevt, -⟩, hcount⟩ := h
    exact ⟨samePorts_of_regs hconf hevt rfl, hcount⟩

/-- Settles O57: after each operation the counter is the run at the new end of the new window. -/
theorem counterAgreementIsKept : Obligations.CounterAgreementIsKept := by
  refine ⟨fun s q => ⟨_, exec_eq .reset s, counterAgrees_runReset s.cfg⟩, fun i s t q h hexec => ?_⟩
  rw [exec_eq] at hexec
  obtain rfl := Host.Outcome.next.inj hexec
  exact h.opRegs i

theorem CounterAgrees.runRegs {cfg : Config} {r : Regs cfg.depth} {q : RunRegs}
    (h : CounterAgrees r q) (is : List Instr) :
    CounterAgrees (runRegs cfg is r) (runExecs cfg is q) := by
  induction is generalizing r q with
  | nil => exact h
  | cons i is ih => exact ih (h.opRegs i)

/-- Settles O46: `RESET` brings the circuits into agreement, and the rest of the run keeps it. -/
theorem runLengthCounterShowsTheSame : Obligations.RunLengthCounterShowsTheSame := by
  intro s q is
  obtain ⟨hports, -⟩ := (counterAgrees_runReset s.cfg).runRegs is
  exact ⟨_, runOps_eq _ s, hports⟩

end Sys2Proof.Machine

/-! ## Proofs of the family 'other': texts, vectors and edges -/

namespace Sys2Proof.Machine

/-! ### The reader accepts well-formed lines only (30_encoding.md R48) -/

theorem parseCount_pos {t : List Char} {k : Nat} (h : parseCount t = some k) : 1 ≤ k := by
  cases t with
  | nil => nomatch h
  | cons c cs =>
    rw [parseCount] at h
    split at h
    next n _ =>
      obtain ⟨hpos, hk⟩ := Option.ite_none_right_eq_some.1 h
      exact Option.some.inj hk ▸ hpos
    next => nomatch h

theorem lineOfBit_ok {f : Bool → AsmLine} {b : List Char} {l : AsmLine}
    (h : lineOfBit f b = .ok l) : ∃ v, l = f v := by
  rw [lineOfBit] at h
  split at h
  next v _ => exact ⟨v, (Except.ok.inj h).symm⟩
  next => nomatch h

theorem lineOfCount_ok {f : Nat → AsmLine} {n : List Char} {l : AsmLine}
    (h : lineOfCount f n = .ok l) : ∃ k, 1 ≤ k ∧ l = f k := by
  rw [lineOfCount] at h
  split at h
  next k hk => exact ⟨k, parseCount_pos hk, (Except.ok.inj h).symm⟩
  next => nomatch h

theorem lineOfBitCount_ok {f : Bool → Nat → AsmLine} {b n : List Char} {l : AsmLine}
    (h : lineOfBitCount f b n = .ok l) : ∃ v k, 1 ≤ k ∧ l = f v k := by
  rw [lineOfBitCount] at h
  split at h
  next v k _ hk => exact ⟨v, k, parseCount_pos hk, (Except.ok.inj h).symm⟩
  next => nomatch h

/-- A line that is read is an operation, or its count was checked to be at least 1. -/
theorem lineOfWords_wellFormed {m : AsmName} {args : List (List Char)} {l : AsmLine}
    (h : lineOfWords m args = .ok l) : l.wellFormed = true := by
  unfold lineOfWords at h
  split at h
  case h_1 | h_3 => exact Except.ok.inj h ▸ rfl
  case h_2 | h_6 =>
    obtain ⟨v, rfl⟩ := lineOfBit_ok h
    rfl
  case h_4 | h_7 =>
    obtain ⟨v, k, hk, rfl⟩ := lineOfBitCount_ok h
    exact decide_eq_true hk
  case h_5 =>
    obtain ⟨k, hk, rfl⟩ := lineOfCount_ok h
    exact decide_eq_true hk
  case h_8 => nomatch h

theorem parseLine_wellFormed {t : List Char} {l : AsmLine} (h : parseLine t = .ok (some l)) :
    l.wellFormed = true := by
  unfold parseLine at h
  split at h
  next => nomatch h
  next w args _ =>
    split at h
    next => nomatch h
    next m _ =>
      split at h
      next l' hl' =>
        obtain rfl := Option.some.inj (Except.ok.inj h)
        exact lineOfWords_wellFormed hl'
      next => nomatch h

/-- Settles O5, by induction on the lines of the text. -/
theorem acceptedLinesAreWellFormed : Obligations.AcceptedLinesAreWellFormed := by
  intro text
  induction text with
  | nil =>
    intro p h
    exact Except.ok.inj h ▸ rfl
  | cons t ts ih =>
    intro p h
    rw [parseProgram] at h
    split at h
    next => nomatch h
    next => nomatch h
    next ls _ hls => exact Except.ok.inj h ▸ ih ls hls
    next l ls hl hls =>
      obtain rfl := Except.ok.inj h
      have hrest : ls.all AsmLine.wellFormed = true := ih ls hls
      rw [programWellFormed, List.all_cons, parseLine_wellFormed hl, hrest]
      rfl

/-! ### The canonical vectors (30_encoding.md R47) and table words (log entry 7) -/

theorem decode_encode (i : Instr) : decode (encode i) = i := by
  cases i with
  | sample d => cases d <;> rfl
  | _ => rfl

theorem decodeTableWord_of_lt {nbits w : Nat} (h : w % 2 ^ nbits < 8) :
    decodeTableWord nbits w = some (decode (BitVec.ofNat 3 (w % 2 ^ nbits))) := by
  simp only [decodeTableWord, ctlOfNat, if_pos h]

theorem decodeTableWord_of_ge {nbits w : Nat} (h : 8 ≤ w % 2 ^ nbits) :
    decodeTableWord nbits w = none := by
  simp only [decodeTableWord, ctlOfNat, if_neg (not_lt.2 h)]

/-- A word that holds three bits is not cut by a width that holds them. -/
theorem mod_two_pow_of_lt_eight {nbits w : Nat} (hw : w < 8) (hn : 3 ≤ nbits) :
    w % 2 ^ nbits = w :=
  Nat.mod_eq_of_lt (hw.trans_le (Nat.pow_le_pow_right two_pos hn))

theorem decodeTableWord_toNat (c : Ctl) {nbits : Nat} (hn : 3 ≤ nbits) :
    decodeTableWord nbits c.toNat = some (decode c) := by
  have hcut : c.toNat % 2 ^ nbits = c.toNat := mod_two_pow_of_lt_eight c.isLt hn
  rw [decodeTableWord_of_lt (hcut.trans_lt c.isLt), hcut, BitVec.ofNat_toNat, BitVec.setWidth_eq]

/-- Of the bits a vector's operation does not ignore, the canonical vector has the same. -/
theorem encode_decode_masked :
    ∀ c : Ctl, encode (decode c) &&& (decode c).row.mask = c &&& (decode c).row.mask := by
  decide

/-- Settles O2: as vectors by the three operations, as table words by the bound of 8 on three bits. -/
theorem decodeOfEncode : Obligations.DecodeOfEncode :=
  ⟨decode_encode, fun i nbits hn => by rw [decodeTableWord_toNat _ hn, decode_encode],
    encode_decode_masked, fun _ _ => decodeTableWord_of_ge⟩

/-! ### Driving vectors, one a clock (30_encoding.md R47, 70_reset_and_hazards.md R82) -/

/-- The machine driven with a list of vectors runs the operations they select. -/
theorem core_run_map_pinsOfCtl (cs : List Ctl) (rest : List Pins) (s : State)
    (h : s.inputs = cs.map pinsOfCtl ++ rest) :
    Host.Core.run core cs.length s = runOps (cs.map decode) { s with inputs := rest } := by
  induction cs generalizing s with
  | nil =>
    have hrest : s.inputs = rest := h
    subst hrest
    rfl
  | cons c cs ih =>
    have hstep : step s = .next _ := (step_pinsOfCtl s c _ h).trans (exec_eq _ _)
    rw [List.length_cons, core_run_next _ hstep, ih _ rfl, List.map_cons, runOps_cons]
    rfl

/-- Settles O12: the assembled vectors are canonical, so each selects the operation it came from. -/
theorem assembledProgramRunsItsOperations : Obligations.AssembledProgramRunsItsOperations := by
  intro p s
  have hdecode : (assemble p).map decode = expandProgram p := by
    simp [assemble, Function.comp_def, decode_encode]
  rw [core_run_map_pinsOfCtl (assemble p) [] _ (List.append_nil _).symm, hdecode]
  rfl

/-- An edge with `rst = 0` and `en = 1` carries the canonical vector of a `SAMPLE`. -/
theorem pinsOfCtl_encode_sample (d : Bool) :
    pinsOfCtl (encode (.sample d)) = pinsOfBits false true d := by
  cases d <;> rfl

/-- Settles O11: a held strobe drives the canonical vectors of k `SAMPLE` operations. -/
theorem heldStrobeSamplesEveryEdge : Obligations.HeldStrobeSamplesEveryEdge := by
  intro ds s rest hin
  have hrun := core_run_map_pinsOfCtl (ds.map fun d => encode (.sample d)) rest s
    (by simpa [Function.comp_def, pinsOfCtl_encode_sample] using hin)
  simp only [List.length_map, List.map_map, Function.comp_def, decode_encode] at hrun
  exact ⟨hrun, _, hrun.trans (runOps_eq _ _), writeRegs_inputs _ _⟩

/-- Settles O10: three bits of a wider word are the vector that is put on the ports. -/
theorem fetchedWordIsPerformed : Obligations.FetchedWordIsPerformed := by
  intro s nbits w hw hn
  have hfetch : s.withFetchWord nbits w = presentNext s (pinsOfCtl (BitVec.ofNat 3 w)) := by
    simp only [State.withFetchWord, mod_two_pow_of_lt_eight hw hn, ctlOfNat, if_pos hw]
  rw [hfetch, step_pinsOfCtl _ _ s.inputs.tail rfl]
  rfl

/-! ### Unsettled levels (70_reset_and_hazards.md R84, log entry 3) -/

/-- The ports are sampled in the order `rst`, `en`, `din`, each from where the last left the draws. -/
theorem step_of_levels {s : State} {p : Pins} {rest : List Pins} {k₁ k₂ k₃ : Draws} {r e d : Bool}
    (hin : s.inputs = p :: rest) (hr : sampleLevel p.rst s.draws = (r, k₁))
    (he : sampleLevel p.en k₁ = (e, k₂)) (hd : sampleLevel p.din k₂ = (d, k₃)) :
    step s = exec (decode (ctlOfBits r e d)) { s with inputs := rest, draws := k₃ } := by
  rw [step_eq, hin]
  simp only [samplePins, hr, he, hd]

/-- The bit of a level and the free values it uses, for any naming of the two. -/
theorem sampleLevel_eq {bit : Level → Nat → Bool} {used : Level → Nat} {stream : Nat}
    (hbit : ∀ k, bit .low k = false ∧ bit .high k = true ∧
      bit .unsettled k = Config.freeLevel stream k)
    (hused : used .low = 0 ∧ used .high = 0 ∧ used .unsettled = 1) (l : Level) (k : Nat) :
    sampleLevel l ⟨stream, k⟩ = (bit l k, ⟨stream, k + used l⟩) := by
  obtain ⟨hlow, hhigh, hfree⟩ := hbit k
  obtain ⟨ulow, uhigh, uone⟩ := hused
  cases l with
  | low => rw [sampleLevel_low, hlow, ulow, Nat.add_zero]
  | high => rw [sampleLevel_high, hhigh, uhigh, Nat.add_zero]
  | unsettled => rw [sampleLevel_unsettled, hfree, uone]

/-- Settles O9: the bits sampled from the levels make the vector that the step performs. -/
theorem unsettledSampleIsAFreeDraw : Obligations.UnsettledSampleIsAFreeDraw := by
  refine ⟨fun s rest hin => ?din, fun s e d rest hin => ?rst, fun s d rest hin => ?en,
    fun s p rest bit used hin hbit hused => ?any⟩
  case din =>
    rw [step_of_levels hin rfl rfl rfl, decode_ctlOfBits]
    rfl
  case rst =>
    rw [step_of_levels hin rfl (sampleLevel_levelOfBit e _) (sampleLevel_levelOfBit d _),
      decode_ctlOfBits]
  case en =>
    rw [step_of_levels hin rfl rfl (sampleLevel_levelOfBit d _), decode_ctlOfBits]
    rfl
  case any =>
    have hsample := sampleLevel_eq hbit hused
    exact step_of_levels hin (hsample p.rst _) (hsample p.en _) (hsample p.din _)

end Sys2Proof.Machine

/-! ## Proofs of the family 'other': the flags, and the laws of runs -/

namespace Sys2Proof.Machine

/-! ### Every operation writes the registers only (20_memory.md R35, 60_exceptions.md section 10) -/

/-- Settles O14: the registers written are those of the operation's transfer. -/
theorem operationsWriteOnlyTheRegisters : Obligations.OperationsWriteOnlyTheRegisters :=
  fun i s => ⟨opRegs s.cfg i s.regs, exec_eq i s⟩

/-- Settles O13: without an edge nothing is written, a second `IDLE` writes what the first wrote, and
`RESET` reads nothing that a loss of supply changes. -/
theorem stoppedClockKeepsTheState : Obligations.StoppedClockKeepsTheState :=
  ⟨fun _ hin => step_of_no_inputs hin,
    fun s k => (runOps_replicate_succ_of_idempotent (i := .idle) rfl k).trans (exec_eq .idle s),
    fun s => ⟨_, exec_eq .reset (powerCycle s)⟩⟩

/-! ### What sets and clears the flags (10_state.md R22) -/

/-- A poll changes the level exactly when it leaves the window full of the other value. -/
theorem regsSample_conf_eq_not_iff {n : Nat} (r : Regs n) (d : Bool) :
    (regsSample d r).conf = (!r.conf) ↔ shiftIn r.win d = fill n (!r.conf) := by
  rcases regsSample_cases r d with ⟨hfill, hconf, -⟩ | ⟨hne, hconf, -⟩
  · exact iff_of_true hconf hfill
  · exact iff_of_false (hconf ▸ (Bool.not_ne_self _).symm) hne

/-- An operation changes the level to `v` as a poll that leaves the window full of `v`, or as a `RESET`
with `INIT = v`. -/
theorem opRegs_conf_iff (cfg : Config) (i : Instr) (r : Regs cfg.depth) {v : Bool}
    (hconf : r.conf = !v) :
    (opRegs cfg i r).conf = v ↔
      ((∃ d, i = .sample d) ∧ (opRegs cfg i r).win = fill cfg.depth v) ∨
        (i = .reset ∧ cfg.init = v) := by
  cases i with
  | reset => simp
  | idle => simp [hconf]
  | sample d =>
    have hflip := regsSample_conf_eq_not_iff r d
    rw [hconf, Bool.not_not] at hflip
    simpa using hflip

/-- Settles O22: the two rows of `CONF` are one lemma in the value confirmed. -/
theorem flagsAreSetAndClearedAsTabled : Obligations.FlagsAreSetAndClearedAsTabled := by
  refine fun i s => ⟨_, exec_eq i s, opRegs_conf_iff s.cfg i s.regs (v := true),
    opRegs_conf_iff s.cfg i s.regs (v := false), ?_, ?_, opRegs_valid_iff s.cfg i s.regs⟩
  · rintro rfl
    rfl
  · rintro rfl
    rfl

/-! ### `CONF` is hidden state (10_state.md R26) -/

theorem ne_fill_of_not_unanimous {n : Nat} {w : BitVec n} (h : unanimous w = false) (b : Bool) :
    w ≠ fill n b := by
  rintro rfl
  exact absurd (unanimous_fill b) (by rw [h]; decide)

/-- Settles O24: a window that is not unanimous is full of no value, so neither level excludes it. -/
theorem equalWindowsDifferentLevels : Obligations.EqualWindowsDifferentLevels :=
  ⟨fun cfg w hmixed c => (reachablePair_iff cfg w c).2 (ne_fill_of_not_unanimous hmixed _), rfl, rfl⟩

/-! ### `IDLE` operations taken out (40_operations.md R51, R54) -/

/-- No operation reads `VALID`. -/
theorem regCodes_regsIdle (cfg : Config) (is : List Instr) (r : Regs cfg.depth) :
    regCodes cfg is (regsIdle r) = regCodes cfg is r := by
  cases is with
  | nil => rfl
  | cons i is => cases i <;> rfl

theorem regsIdle_runRegs_regsIdle (cfg : Config) (is : List Instr) (r : Regs cfg.depth) :
    regsIdle (runRegs cfg is (regsIdle r)) = regsIdle (runRegs cfg is r) := by
  cases is with
  | nil => rfl
  | cons i is => cases i <;> rfl

/-- Without its `IDLE` operations a run reports the same codes and leaves the same but for `VALID`. -/
theorem run_filter_idle (cfg : Config) (is : List Instr) (r : Regs cfg.depth) :
    regCodes cfg (is.filter (fun i => i != .idle)) r = regCodes cfg is r ∧
      regsIdle (runRegs cfg (is.filter (fun i => i != .idle)) r) = regsIdle (runRegs cfg is r) := by
  induction is generalizing r with
  | nil => exact ⟨rfl, rfl⟩
  | cons i is ih =>
    cases i with
    | reset => exact ih (regsReset cfg)
    | sample d =>
      obtain ⟨hcodes, hregs⟩ := ih (regsSample d r)
      exact ⟨congrArg (List.cons _) hcodes, hregs⟩
    | idle =>
      obtain ⟨hcodes, hregs⟩ := ih r
      exact ⟨hcodes.trans (regCodes_regsIdle cfg is r).symm,
        hregs.trans (regsIdle_runRegs_regsIdle cfg is r).symm⟩

theorem eq_of_regsIdle_eq {n : Nat} {r q : Regs n} (h : regsIdle r = regsIdle q) :
    q = { r with valid := q.valid } := by
  obtain ⟨hwin, hconf, hevt, -⟩ := Regs.mk.inj h
  rw [hwin, hconf, hevt]

/-- Settles O39, by induction on the run, on the registers but for `VALID`. -/
theorem idlesChangeNoEvent : Obligations.IdlesChangeNoEvent := by
  intro is s
  obtain ⟨hcodes, hregs⟩ := run_filter_idle s.cfg is s.regs
  refine ⟨by rw [pollCodes_eq, pollCodes_eq, hcodes], _,
    (runRegs s.cfg is s.regs).valid, runOps_eq _ s, ?_⟩
  rw [runOps_eq]
  exact congrArg (fun r => Host.Outcome.next (writeRegs s r)) (eq_of_regsIdle_eq hregs)

/-! ### Events alternate (40_operations.md R56) -/

/-- Every report of a run is an event's code. -/
theorem exists_event_of_mem_regCodes (cfg : Config) (is : List Instr) (r : Regs cfg.depth) :
    ∀ c ∈ regCodes cfg is r, ∃ e, c = eventCode e := by
  induction is generalizing r with
  | nil => simp
  | cons i is ih =>
    cases i with
    | reset => exact ih (regsReset cfg)
    | idle => exact ih (regsIdle r)
    | sample d =>
      rw [regCodes_sample, List.forall_mem_cons]
      exact ⟨⟨_, rfl⟩, ih (regsSample d r)⟩

/-- By induction on the run: an event changes the level, and the next one is to the level not confirmed. -/
theorem regCodes_events_isChain (cfg : Config) (is : List Instr) (r : Regs cfg.depth)
    (hf : ResetFree is) :
    ((regCodes cfg is r).filter (fun c => c != eventCode .none)).IsChain (fun a b => a ≠ b) := by
  induction is generalizing r with
  | nil => exact .nil
  | cons i is ih =>
    obtain ⟨hi, hfree⟩ := resetFree_cons.1 hf
    cases i with
    | reset => exact absurd rfl hi
    | idle => exact ih (regsIdle r) hfree
    | sample d =>
      have hrest := ih (regsSample d r) hfree
      rw [regCodes_sample]
      rcases regsSample_cases r d with ⟨-, hconf, hevt⟩ | ⟨-, -, hevt⟩
      · rw [List.filter_cons_of_pos (by simp [hevt, eventTo_code_ne]), List.isChain_cons]
        refine ⟨fun e he => ?_, hrest⟩
        rw [Option.mem_def, List.head?_filter] at he
        rw [regCodes_first_event cfg is _ e hfree he, hevt, hconf]
        exact fun h => (Bool.not_ne_self _).symm (eventTo_code_inj h)
      · rwa [List.filter_cons_of_neg (by simp [hevt])]

theorem eventCodes_rise_or_fall (is : List Instr) (s : State) :
    ∀ e ∈ eventCodes is s, e = eventCode .rise ∨ e = eventCode .fall := by
  intro e he
  rw [eventCodes, pollCodes_eq, List.mem_filter] at he
  obtain ⟨event, rfl⟩ := exists_event_of_mem_regCodes _ _ _ e he.1
  cases event with
  | none => simp at he
  | rise => exact Or.inl rfl
  | fall => exact Or.inr rfl

/-- Settles O40: each event is to the level its predecessor left unconfirmed, the first after `RESET` to
not `INIT`. -/
theorem eventsAlternate : Obligations.EventsAlternate := by
  refine fun s is hf => ⟨?chain, eventCodes_rise_or_fall is s, fun e he => ?first⟩
  case chain =>
    rw [eventCodes, pollCodes_eq]
    exact regCodes_events_isChain s.cfg is s.regs hf
  case first =>
    rw [eventCodes_head?, regCodes_reset] at he
    rw [regCodes_first_event s.cfg is _ e hf he, regsReset_conf]
    cases s.cfg.init <;> rfl

/-! ### N further samples of one value (70_reset_and_hazards.md R91) -/

/-- The last N or more samples of one value fill the window with it, whatever was there. -/
theorem runRegs_win_of_last_samples (cfg : Config) {is : List Instr} {xs : List Bool} {m : Nat}
    {v : Bool} (r : Regs cfg.depth) (hf : ResetFree is)
    (hs : samplesOf is = xs ++ List.replicate m v) (hm : cfg.depth ≤ m) :
    (runRegs cfg is r).win = fill cfg.depth v := by
  rw [eq_fill_iff]
  intro i hi
  rw [runRegs_window_bit cfg is r hf i hi, hs, if_pos (by simp; omega), List.reverse_append,
    List.reverse_replicate, List.getD_append _ _ _ _ (by simp; omega)]
  simp [show i < m by omega]

/-- One poll brings the window and the level into agreement, and the rest of the run keeps it. -/
theorem runRegs_windowAgrees_of_polled (cfg : Config) (is : List Instr) (r : Regs cfg.depth)
    (h : samplesOf is ≠ []) : WindowAgrees (runRegs cfg is r) := by
  induction is generalizing r with
  | nil => exact absurd rfl h
  | cons i is ih =>
    cases i with
    | reset => exact ih (regsReset cfg) h
    | idle => exact ih (regsIdle r) h
    | sample d =>
      exact runRegs_induction (opRegs_windowAgrees cfg) is
        (regsSample_windowAgrees cfg.depth_pos r d)

/-- A full window that agrees with the level is full of the level. -/
theorem WindowAgrees.conf_of_fill {n : Nat} (hn : 1 ≤ n) {r : Regs n} {v : Bool}
    (h : WindowAgrees r) (hwin : r.win = fill n v) : r.conf = v := by
  rw [windowAgrees_iff hn, hwin, Ne, fill_inj hn, Bool.eq_not, not_not] at h
  exact h.symm

theorem runRegs_conf_of_last_samples (cfg : Config) {is : List Instr} {xs : List Bool} {m : Nat}
    {v : Bool} (r : Regs cfg.depth) (hf : ResetFree is)
    (hs : samplesOf is = xs ++ List.replicate m v) (hm : cfg.depth ≤ m) :
    (runRegs cfg is r).conf = v := by
  have hpolled : samplesOf is ≠ [] := by
    have hm' : m ≠ 0 := by
      have := cfg.depth_pos
      omega
    simp [hs, hm']
  exact (runRegs_windowAgrees_of_polled cfg is r hpolled).conf_of_fill cfg.depth_pos
    (runRegs_win_of_last_samples cfg r hf hs hm)

/-- Settles O44: the samples fill the window, and a window that was polled agrees with the level. -/
theorem nSamplesConfirmTheirLevel : Obligations.NSamplesConfirmTheirLevel :=
  fun s _ _ _ is hf hs hm => ⟨_, runOps_eq is s, runRegs_conf_of_last_samples s.cfg s.regs hf hs hm,
    runRegs_win_of_last_samples s.cfg s.regs hf hs hm⟩

/-- Settles O52: a hold of `N_L` samples is one of `N_S` samples too; and `RESET` leaves nothing of the
registers it finds. -/
theorem pairLevelsAfterAHold : Obligations.PairLevelsAfterAHold := by
  refine ⟨fun p v m hmatched hm => ⟨_, runPair_eq _ p, ?short, ?long⟩,
    fun cfg r r' ins k is => ⟨_, runOps_eq _ _, runOps_eq _ _⟩⟩
  case short =>
    exact runRegs_conf_of_last_samples (xs := []) p.short.cfg (regsReset p.short.cfg)
      (resetFree_replicate_sample m v) (samplesOf_replicate_sample m v) (hmatched.1.le.trans hm)
  case long =>
    exact runRegs_conf_of_last_samples (xs := []) p.long.cfg (regsReset p.long.cfg)
      (resetFree_replicate_sample m v) (samplesOf_replicate_sample m v) hm

end Sys2Proof.Machine

/-! ## Proofs of the family 'other': what a consumer reads, and several instances -/

namespace Sys2Proof.Machine

/-! ### The ports (10_state.md R19) -/

theorem portRiseP_iff {n : Nat} (r : Regs n) :
    portRiseP r = true ↔ r.valid = true ∧ r.evt = 0b01#2 := by
  simp [portRiseP]

theorem portFallP_iff {n : Nat} (r : Regs n) :
    portFallP r = true ↔ r.valid = true ∧ r.evt = 0b10#2 := by
  simp [portFallP]

/-- Settles O31: `EVT` is some event's code, and the outputs are read from the registers. -/
theorem portsFollowTheirFormulas : Obligations.PortsFollowTheirFormulas := by
  intro s h
  obtain ⟨e, -, hcode⟩ := eventOfCode_some _ h
  exact ⟨_, outputs_of_eventCode hcode.symm, rfl, hcode, rfl, portRiseP_iff s.regs,
    portFallP_iff s.regs, fun hwin => if_pos hwin, fun hwin => if_neg (by simp [hwin])⟩

/-! ### The record of a run (60_exceptions.md R70, 70_reset_and_hazards.md R86) -/

/-- What is read of the registers; `0b11` is never read, and stands for `NONE` here. -/
def readingOf {n : Nat} (poll : Nat) (r : Regs n) : Reading :=
  { poll := poll, level := r.conf, edge := (eventOfCode r.evt).getD .none, valid := r.valid,
    riseP := portRiseP r, fallP := portFallP r }

/-- The readings after each operation of a run, on the registers alone. -/
def regReadings (cfg : Config) : Nat → List Instr → Regs cfg.depth → List Reading
  | _, [], _ => []
  | k, i :: is, r =>
    readingOf (nextPoll i k) (opRegs cfg i r) :: regReadings cfg (nextPoll i k) is (opRegs cfg i r)

theorem reading_eq {k : Nat} {s : State} (h : s.regs.evt ≠ 0b11#2) :
    reading k s = .ok (readingOf k s.regs) := by
  obtain ⟨e, he, hcode⟩ := eventOfCode_some _ h
  rw [reading, outputs_of_eventCode hcode.symm, readingOf, he]
  rfl

theorem eventCode_readingOf_edge {n : Nat} (k : Nat) {r : Regs n} (h : r.evt ≠ 0b11#2) :
    eventCode (readingOf k r).edge = r.evt := by
  obtain ⟨e, he, hcode⟩ := eventOfCode_some _ h
  rw [readingOf, he, ← hcode]
  rfl

/-- No operation writes `0b11`, so a run that starts without it is read to its end. -/
theorem readings_eq (k : Nat) (is : List Instr) {s : State} (h : s.regs.evt ≠ 0b11#2) :
    readings k is s = .next (regReadings s.cfg k is s.regs) := by
  induction is generalizing k s with
  | nil => rfl
  | cons i is ih =>
    have hnext : (writeRegs s (opRegs s.cfg i s.regs)).regs.evt ≠ 0b11#2 :=
      opRegs_evt_ne_reserved s.cfg i s.regs h
    simp only [readings, exec_eq, reading_eq hnext, ih (nextPoll i k) hnext]
    rfl

theorem runRegs_evt_ne_reserved (cfg : Config) (is : List Instr) {r : Regs cfg.depth}
    (h : r.evt ≠ 0b11#2) : (runRegs cfg is r).evt ≠ 0b11#2 :=
  runRegs_induction (P := fun r => r.evt ≠ 0b11#2) (opRegs_evt_ne_reserved cfg) is h

theorem regReadings_length (cfg : Config) (k : Nat) (is : List Instr) (r : Regs cfg.depth) :
    (regReadings cfg k is r).length = is.length := by
  induction is generalizing k r with
  | nil => rfl
  | cons i is ih => exact congrArg (· + 1) (ih _ _)

/-- A pulse of `VALID` with a code shows only after polls, and so once for each report of that code. -/
theorem regReadings_countP_pulse {pulse : Reading → Bool} {c : EvtCode} (cfg : Config)
    (hpulse : ∀ (k : Nat) (r : Regs cfg.depth), pulse (readingOf k r) = (r.valid && r.evt == c))
    (k : Nat) (is : List Instr) (r : Regs cfg.depth) :
    (regReadings cfg k is r).countP pulse = (regCodes cfg is r).count c := by
  induction is generalizing k r with
  | nil => rfl
  | cons i is ih =>
    rw [regReadings, List.countP_cons, hpulse, ih]
    cases i with
    | reset => simp
    | idle => simp
    | sample d => simp [List.count_cons]

/-- The reading after an operation is read of the registers the run up to it leaves. -/
theorem regReadings_getElem? (cfg : Config) (k : Nat) (is : List Instr) (r : Regs cfg.depth) {j : Nat}
    (hj : j < is.length) :
    ∃ poll, (regReadings cfg k is r)[j]? =
      some (readingOf poll (runRegs cfg (is.take (j + 1)) r)) := by
  induction is generalizing k r j with
  | nil => nomatch hj
  | cons i is ih =>
    cases j with
    | zero => exact ⟨nextPoll i k, rfl⟩
    | succ j => exact ih (nextPoll i k) (opRegs cfg i r) (Nat.lt_of_succ_lt_succ hj)

/-- Settles O47: the record reads the registers after each operation, pulses after polls only. -/
theorem pulsesShowEachEventOnce : Obligations.PulsesShowEachEventOnce := by
  intro k is s h
  rw [pollCodes_eq]
  refine ⟨_, readings_eq k is h, regReadings_length ..,
    regReadings_countP_pulse s.cfg (fun _ _ => rfl) ..,
    regReadings_countP_pulse s.cfg (fun _ _ => rfl) .., fun j hj => ?_⟩
  obtain ⟨poll, hread⟩ := regReadings_getElem? s.cfg k is s.regs hj
  exact ⟨_, _, hread, runOps_eq _ s, rfl,
    eventCode_readingOf_edge poll (runRegs_evt_ne_reserved s.cfg _ h), rfl⟩

/-- A reading of a run without `RESET` is of the registers after some first part of it, with the polls
of that part counted. -/
theorem exists_first_part_of_mem_regReadings (cfg : Config) (k : Nat) (is : List Instr)
    (r : Regs cfg.depth) (hf : ResetFree is) {x : Reading} (hx : x ∈ regReadings cfg k is r) :
    ∃ a b, is = a ++ b ∧ x = readingOf (k + pollCount a) (runRegs cfg a r) := by
  induction is generalizing k r with
  | nil => nomatch hx
  | cons i is ih =>
    obtain ⟨hi, hfree⟩ := resetFree_cons.1 hf
    have hpoll (a : List Instr) : nextPoll i k + pollCount a = k + pollCount (i :: a) := by
      cases i with
      | reset => exact absurd rfl hi
      | idle => rfl
      | sample d =>
        have hcons : pollCount (.sample d :: a) = pollCount a + 1 := List.countP_cons_of_pos rfl
        rw [hcons, nextPoll]
        omega
    rw [regReadings, List.mem_cons] at hx
    rcases hx with rfl | hx
    · exact ⟨[i], is, rfl, by rw [← hpoll]; rfl⟩
    · obtain ⟨a, b, rfl, rfl⟩ := ih _ _ hfree hx
      exact ⟨i :: a, b, rfl, by rw [hpoll]; rfl⟩

/-- After a first part with `j + 1` polls `EVT` is the `(j+1)`-th report of the whole run. -/
theorem regCodes_append_getElem? (cfg : Config) {a : List Instr} (b : List Instr)
    (r : Regs cfg.depth) (hf : ResetFree a) {j : Nat} (hj : pollCount a = j + 1) :
    (regCodes cfg (a ++ b) r)[j]? = some (runRegs cfg a r).evt := by
  have hlen : (regCodes cfg a r).length = j + 1 := (regCodes_length cfg a r).trans hj
  have hlast : (regCodes cfg a r).getLast? = (regCodes cfg a r)[j]? := by
    rw [List.getLast?_eq_getElem?, hlen, Nat.add_sub_cancel]
  rw [regCodes_append, List.getElem?_append_left (by omega), runRegs_evt cfg a r hf,
    List.getLastD_eq_getLast?, hlast, List.getElem?_eq_getElem (by omega)]
  rfl

/-- Before the first poll since `RESET`, `EVT` is `NONE`. -/
theorem runRegs_regsReset_evt_of_no_polls (cfg : Config) {is : List Instr} (hf : ResetFree is)
    (h : pollCount is = 0) : (runRegs cfg is (regsReset cfg)).evt = eventCode .none := by
  rw [runRegs_evt cfg is _ hf, regCodes_of_no_samples]
  · rfl
  · rw [← List.length_eq_zero_iff, samplesOf_length, h]

/-- The record of a run from `RESET`, whatever code `EVT` held before: the reading right after `RESET`
is the one of the empty first part. -/
theorem readings_reset (s : State) (is : List Instr) (hf : ResetFree is) :
    ∃ rs, readings 0 (.reset :: is) s = .next rs ∧ ∀ x ∈ rs, ∃ a b, is = a ++ b ∧
      x = readingOf (pollCount a) (runRegs s.cfg a (regsReset s.cfg)) := by
  have hrun : readings 0 (.reset :: is) s =
      .next (regReadings s.cfg 0 (.reset :: is) (regsReset s.cfg)) :=
    readings_eq 0 (.reset :: is) (s := writeRegs s (regsReset s.cfg)) (eventCode_ne_reserved .none)
  refine ⟨_, hrun, fun x hx => ?_⟩
  rw [regReadings, List.mem_cons] at hx
  rcases hx with rfl | hx
  · exact ⟨[], is, rfl, rfl⟩
  · obtain ⟨a, b, his, hread⟩ := exists_first_part_of_mem_regReadings s.cfg 0 is _ hf hx
    exact ⟨a, b, his, by rw [hread, Nat.zero_add]; rfl⟩

/-- Settles O48: a reading's number counts the polls of the run up to it, and the last of them wrote the
event it shows. -/
theorem readingRecordsItsPoll : Obligations.ReadingRecordsItsPoll := by
  intro s is hf
  obtain ⟨rs, hrun, hmem⟩ := readings_reset s is hf
  refine ⟨rs, hrun, fun x hx => ?_⟩
  obtain ⟨a, b, rfl, rfl⟩ := hmem x hx
  have hfa : ResetFree a := fun h => hf (List.mem_append_left b h)
  refine ⟨fun hno => ?none, fun j hj => ?report⟩
  case none =>
    rw [readingOf, runRegs_regsReset_evt_of_no_polls s.cfg hfa hno]
    rfl
  case report =>
    have hevt : (regsReset s.cfg).evt ≠ 0b11#2 := eventCode_ne_reserved .none
    rw [pollCodes_eq, eventCode_readingOf_edge _ (runRegs_evt_ne_reserved s.cfg a hevt)]
    exact regCodes_append_getElem? s.cfg b _ hfa hj

/-! ### The edge of a system (20_memory.md R39, 60_exceptions.md R77) -/

theorem stepSystem_of_forall₂ {sys sys' : List State}
    (h : List.Forall₂ (fun s t => step s = .next t) sys sys') : stepSystem sys = .next sys' := by
  induction h with
  | nil => rfl
  | cons hstep _ ih => simp only [stepSystem, hstep, ih]

/-- Every instance's edge completes, so the system's does. -/
theorem exists_forall₂_step (sys : List State) :
    ∃ sys', List.Forall₂ (fun s t => step s = .next t) sys sys' := by
  induction sys with
  | nil => exact ⟨[], .nil⟩
  | cons s ss ih =>
    obtain ⟨t, hstep, -⟩ := step_next_cfg s
    obtain ⟨ts, hrest⟩ := ih
    exact ⟨t :: ts, .cons hstep hrest⟩

theorem stepSystem_iff (sys sys' : List State) :
    stepSystem sys = .next sys' ↔ List.Forall₂ (fun s t => step s = .next t) sys sys' := by
  refine ⟨fun h => ?_, stepSystem_of_forall₂⟩
  obtain ⟨ts, hts⟩ := exists_forall₂_step sys
  rw [stepSystem_of_forall₂ hts] at h
  exact Host.Outcome.next.inj h ▸ hts

/-- Settles O55: an instance's edge always completes, and a system's edge is one of each instance. -/
theorem instancesStepIndependently : Obligations.InstancesStepIndependently := by
  refine ⟨fun sys => ?_, stepSystem_iff⟩
  obtain ⟨ts, hts⟩ := exists_forall₂_step sys
  exact ⟨ts, stepSystem_of_forall₂ hts⟩

/-- Settles O50: an edge's operation is decoded from the levels alone, which are the same for both. -/
theorem sameDriveIsOneOperationOnBoth : Obligations.SameDriveIsOneOperationOnBoth := by
  intro p r e d restS restL hS hL
  have hstepS := (step_pinsOfBits p.short r e d restS hS).trans (exec_eq _ _)
  have hstepL := (step_pinsOfBits p.long r e d restL hL).trans (exec_eq _ _)
  exact ⟨_, execPair_eq _ _, exec_eq _ _, exec_eq _ _,
    (stepSystem_iff ..).2 (.cons hstepS (.cons hstepL .nil))⟩

/-! ### Events at one edge (40_operations.md R65, 60_exceptions.md R73) -/

/-- Settles O54: the short instance's two samples come last, after a held `IDLE` or `RESET`, and the
long one's sixteen samples end at the same edge. -/
theorem separateDriveCanCoincide : Obligations.SeparateDriveCanCoincide := by
  refine ⟨rfl, rfl, ?long, rfl, rfl⟩
  case long =>
    exact (congrArg List.getLast?
      (pollCodes_reset_depth_samples_not_init (State.resetOf Config.pwrLong 1))).trans
      List.getLast?_concat

theorem handlingOrder_iff {sys : List State} {evs : List (Nat × Event)}
    (h : freshEvents sys = .ok evs) (order : List (Nat × Event)) :
    HandlingOrder sys order ↔ order.Perm evs := by
  rw [HandlingOrder, h]
  simp

/-- Two fresh events may be handled in either order, and neither may be left out. -/
theorem handlingOrder_of_two {sys : List State} {x y : Nat × Event}
    (h : freshEvents sys = .ok [x, y]) :
    HandlingOrder sys [x, y] ∧ HandlingOrder sys [y, x] ∧ ¬ HandlingOrder sys [x] := by
  simp only [handlingOrder_iff h]
  exact ⟨.refl _, .swap _ _ _, fun hdrop => nomatch hdrop.length_eq⟩

/-- Settles O56: sixteen samples raise both instances, and the system reports the two events. -/
theorem sameEdgeEventsInAnyOrder : Obligations.SameEdgeEventsInAnyOrder :=
  ⟨_, _, runOps_eq _ _, runOps_eq _ _, handlingOrder_of_two rfl⟩

end Sys2Proof.Machine
